-- ==== Sys2Proof/Word.lean ====
section
/-! DEFINITION. The instruction word and the data value (spec/00_scope.md R241). -/

namespace Sys2Proof

/-- An instruction word: "a natural number in 0 .. 2^32 - 1" (R241, R20). -/
abbrev Word := BitVec 32

/-- A register or data-memory value: a signed integer (R241). The range that XLEN allows (R9) is no part
of the type: `Machine.inRange` says it, and the invariant of Safety.lean says that every stored value has it. -/
abbrev Value := Int

end Sys2Proof
end

