-- ==== Sys2Proof/Config.lean ====
section
/-! DEFINITION. What an implementation fixes: the parameters of spec/00_scope.md section 4, the two reset values the
spec leaves open, and the failures of spec/60_exceptions.md R181. -/

namespace Sys2Proof

/-- The width of a register and of a data cell (R9): a number of bits, or unbounded. -/
inductive Xlen where
  | bits (n : Nat)
  | unbounded
deriving DecidableEq, Repr

/-- What the constructor is told of data memory (R8, R211): its contents, or a size to fill with zero. -/
inductive DmemInput where
  | contents (values : List Value)
  | size (n : Nat)
deriving DecidableEq, Repr

/-- The arguments of the model (R7, R8, R9, R211). `prog` holds plain numbers, so that an element that is not a Word
can be refused (R212). -/
structure Params where
  nregs  : Nat
  xlen   : Xlen
  dmem   : DmemInput
  prog   : List Nat
  sfInit : Bool
  zfInit : Bool
deriving DecidableEq, Repr

namespace Config

/-- SF_INIT, the sign flag after reset (R17). DESIGN CHOICE (log entry 2): the spec gives no value and forbids assuming
one, so this constant has no body and nothing can be proved of its value. -/
opaque sfInit : Bool

/-- ZF_INIT, the zero flag after reset (R17). DESIGN CHOICE (log entry 2), as `sfInit`. -/
opaque zfInit : Bool

/-- The default number of registers (R7). -/
def nregs : Nat := 16

/-- The default number of data cells (R8). -/
def dmemSize : Nat := 16

/-- The default width of a value (R9). -/
def xlen : Xlen := .bits 32

/-- What a data cell the memory's list does not name holds: the zero fill of R8 and R21 (log entry 6). -/
def unlistedCell : Value := 0

/-- The register the `set` expansion uses (R9, R13: SCRATCH = 0). -/
def scratch : Nat := 0

/-- The default machine, with an empty store and the two open flag values. -/
def default : Params :=
  { nregs := nregs, xlen := xlen, dmem := .size dmemSize, prog := [], sfInit := sfInit, zfInit := zfInit }

end Config

/-- The failure kinds of R181. -/
inductive FailureKind where
  | syntaxFailure
  | rangeFailure
  | resolutionFailure
  | decodeFailure
  | boundsFailure
  | usageFailure
  | widthFailure
  | valueRangeFailure
deriving DecidableEq, Repr

/-- The store a BoundsFailure names (R242: `reg` or `dmem`). -/
inductive Store where
  | reg
  | dmem
deriving DecidableEq, Repr

/-- A failure as it is raised: its kind with the diagnostic `info` of R242. The info reaches the host's message only;
it is not state (R182), and `Machine.raiseFailure` drops it. -/
inductive Failure where
  /-- SyntaxFailure, code a. -/
  | malformed
  /-- RangeFailure, code b, with the value outside its field. -/
  | range (value : Int)
  /-- ResolutionFailure, code c, with the label nothing binds. -/
  | resolution (label : List Char)
  /-- DecodeFailure, code d, with the opcode. -/
  | decode (opcode : Nat)
  /-- BoundsFailure, code e, with the store and the index. -/
  | bounds (store : Store) (index : Int)
  /-- UsageFailure, code u. -/
  | usage
  /-- WidthFailure, code w, with the packed number. -/
  | width (packed : Nat)
  /-- ValueRangeFailure, code v, with the exact result. -/
  | valueRange (res : Int)
deriving DecidableEq, Repr

end Sys2Proof
end

