-- ==== Sys2Proof/Syntax.lean ====
section
/-! DEFINITION. The 16 operations (spec/30_encoding.md R75), one constructor per row of spec/opcode_table.json, with the
fields the operation uses (R58) and no others: `a` is op1, `b` is op2, `l` the literal. -/

namespace Sys2Proof

/-- The instructions. Operands are natural numbers; `WellFormed` says which fit their fields. -/
inductive Instr where
  | movRR (a b : Nat)
  | movRI (a l : Nat)
  | movRD (a b : Nat)
  | movDR (a b : Nat)
  | xchg (a b : Nat)
  | addRR (a b : Nat)
  | addRI (a l : Nat)
  | subRR (a b : Nat)
  | subRI (a l : Nat)
  | cmpRR (a b : Nat)
  | cmpRI (a l : Nat)
  | js (l : Nat)
  | jns (l : Nat)
  | jne (l : Nat)
  | movRX (a b : Nat)
  | je (l : Nat)
deriving DecidableEq, Repr

end Sys2Proof
end

