-- ==== Sys2Proof/WellFormed.lean ====
section
/-! DEFINITION. Which instructions an encoding admits: address fields 0 .. 15, literal field 0 .. 255
(spec/00_scope.md R5, R6; spec/30_encoding.md R62). -/

namespace Sys2Proof

/-- An address field holds 0 .. 15 (R5: `Idx4`). -/
def isIdx4 (n : Nat) : Bool := decide (n ≤ 15)

/-- The literal field holds 0 .. 255 (R6: `Lit8`). -/
def isLit8 (n : Nat) : Bool := decide (n ≤ 255)

/-- Every field the instruction has fits its bits. -/
def WellFormed : Instr → Bool
  | .movRR a b => isIdx4 a && isIdx4 b
  | .movRI a l => isIdx4 a && isLit8 l
  | .movRD a b => isIdx4 a && isIdx4 b
  | .movDR a b => isIdx4 a && isIdx4 b
  | .xchg a b => isIdx4 a && isIdx4 b
  | .addRR a b => isIdx4 a && isIdx4 b
  | .addRI a l => isIdx4 a && isLit8 l
  | .subRR a b => isIdx4 a && isIdx4 b
  | .subRI a l => isIdx4 a && isLit8 l
  | .cmpRR a b => isIdx4 a && isIdx4 b
  | .cmpRI a l => isIdx4 a && isLit8 l
  | .js l => isLit8 l
  | .jns l => isLit8 l
  | .jne l => isLit8 l
  | .movRX a b => isIdx4 a && isIdx4 b
  | .je l => isLit8 l

end Sys2Proof
end

