-- ==== Sys2Proof/Decode.lean ====
section
/-! DEFINITION. The decoder (spec/30_encoding.md R55 to R58) and, after it, the encoder of an instruction (R61). -/

namespace Sys2Proof

/-- `w[hi:lo]` of R240. -/
def bits (w : Word) (hi lo : Nat) : Nat := w.toNat / 2 ^ lo % 2 ^ (hi - lo + 1)

/-- The five fields `Decode` answers (R55). -/
structure Fields where
  opcode  : Nat
  literal : Nat
  dest    : Nat
  op1     : Nat
  op2     : Nat
deriving DecidableEq, Repr

/-- `Decode` of R55: five slices, the same for every opcode. Bits 27:20 reach no field (R53). -/
def decodeFields (w : Word) : Fields where
  opcode  := bits w 31 28
  literal := bits w 19 12
  dest    := bits w 11 8
  op1     := bits w 7 4
  op2     := bits w 3 0

/-- The operation the opcode selects (R75, R104), with the fields it uses (R58). The last arm is the DecodeFailure of
R56, which no 4-bit opcode reaches. -/
def selectInstr (f : Fields) : Except Failure Instr :=
  match f.opcode with
  | 0 => .ok (.movRR f.op1 f.op2)
  | 1 => .ok (.movRI f.op1 f.literal)
  | 2 => .ok (.movRD f.op1 f.op2)
  | 3 => .ok (.movDR f.op1 f.op2)
  | 4 => .ok (.xchg f.op1 f.op2)
  | 5 => .ok (.addRR f.op1 f.op2)
  | 6 => .ok (.addRI f.op1 f.literal)
  | 7 => .ok (.subRR f.op1 f.op2)
  | 8 => .ok (.subRI f.op1 f.literal)
  | 9 => .ok (.cmpRR f.op1 f.op2)
  | 10 => .ok (.cmpRI f.op1 f.literal)
  | 11 => .ok (.js f.literal)
  | 12 => .ok (.jns f.literal)
  | 13 => .ok (.jne f.literal)
  | 14 => .ok (.movRX f.op1 f.op2)
  | 15 => .ok (.je f.literal)
  | n => .error (.decode n)

/-- A word's instruction: every word has one (R76). -/
def decode (w : Word) : Except Failure Instr := selectInstr (decodeFields w)

/-- The decoder on a table row's bits, numbered as spec/opcode_table.json numbers them. A number that is no 32-bit word
is refused (R20, R183; log entry 8). -/
def decodeTableWord (nbits w : Nat) : Option Instr :=
  if nbits ≤ 32 ∧ w < 2 ^ 32 then (decode (BitVec.ofNat 32 w)).toOption else none

/-- `Pack` of R61, over the numbers. -/
def pack (opc lit dst a b : Nat) : Nat :=
  opc * 2 ^ 28 + lit * 2 ^ 12 + dst * 2 ^ 8 + a * 2 ^ 4 + b

/-- An instruction's opcode (R75). -/
def opcodeOf : Instr → Nat
  | .movRR _ _ => 0
  | .movRI _ _ => 1
  | .movRD _ _ => 2
  | .movDR _ _ => 3
  | .xchg _ _ => 4
  | .addRR _ _ => 5
  | .addRI _ _ => 6
  | .subRR _ _ => 7
  | .subRI _ _ => 8
  | .cmpRR _ _ => 9
  | .cmpRI _ _ => 10
  | .js _ => 11
  | .jns _ => 12
  | .jne _ => 13
  | .movRX _ _ => 14
  | .je _ => 15

/-- The fields of the canonical word (R61, R71): dest is op1's index (0 in a jump), an unused field is 0. -/
def fieldsOf (i : Instr) : Fields :=
  match i with
  | .movRR a b | .movRD a b | .movDR a b | .xchg a b | .addRR a b | .subRR a b | .cmpRR a b | .movRX a b =>
    { opcode := opcodeOf i, literal := 0, dest := a, op1 := a, op2 := b }
  | .movRI a l | .addRI a l | .subRI a l | .cmpRI a l =>
    { opcode := opcodeOf i, literal := l, dest := a, op1 := a, op2 := 0 }
  | .js l | .jns l | .jne l | .je l =>
    { opcode := opcodeOf i, literal := l, dest := 0, op1 := 0, op2 := 0 }

/-- The canonical word of an instruction (R61, R71). It means something for a well-formed instruction only
(log entry 16). -/
def encode (i : Instr) : Word :=
  let f := fieldsOf i
  BitVec.ofNat 32 (pack f.opcode f.literal f.dest f.op1 f.op2)

/-- R71: the word is one the encoder can produce, said of its bits. -/
def canonical (w : Word) : Bool :=
  let f := decodeFields w
  bits w 27 20 == 0 &&
  (if f.opcode ∈ [0, 2, 3, 4, 5, 7, 9, 14] then f.literal == 0 && f.dest == f.op1
   else if f.opcode ∈ [1, 6, 8, 10] then f.op2 == 0 && f.dest == f.op1
   else f.dest == 0 && f.op1 == 0 && f.op2 == 0)

/-- The kind of a raised failure (R181). -/
def Failure.kind : Failure → FailureKind
  | .malformed => .syntaxFailure
  | .range _ => .rangeFailure
  | .resolution _ => .resolutionFailure
  | .decode _ => .decodeFailure
  | .bounds _ _ => .boundsFailure
  | .usage => .usageFailure
  | .width _ => .widthFailure
  | .valueRange _ => .valueRangeFailure

/-- The code letter of a failure kind (R181). -/
def FailureKind.code : FailureKind → Char
  | .syntaxFailure => 'a'
  | .rangeFailure => 'b'
  | .resolutionFailure => 'c'
  | .decodeFailure => 'd'
  | .boundsFailure => 'e'
  | .usageFailure => 'u'
  | .widthFailure => 'w'
  | .valueRangeFailure => 'v'

end Sys2Proof
end

