-- ==== Sys2Proof/Machine/State.lean ====
section
/-! DEFINITION. The machine's state (spec/10_state.md), the reasons a step can stop, and the state after reset (R25). -/

namespace Sys2Proof.Machine

/-- The run status (R23). -/
inductive Status where
  | running
  | halted
  | failed (kind : FailureKind)
deriving DecidableEq, Repr

/-- The data memory (R21): `size` cells of one value each, listed as (address, value) pairs. The list is in one
canonical form, `Memory.wf`: addresses strictly rising and below `size`, and no pair holding what an unlisted cell
holds. A cell is a whole signed integer; the machine has no bytes (R31, R36; log entry 6). -/
structure Memory where
  size  : Nat
  cells : List (Nat × Value)
deriving DecidableEq, Repr

/-- The state: R10's list, with the constructor's XLEN beside it (log entry 1). NREGS is the length of `regs`,
DMEM_SIZE is `dm.size`, PROG_LEN is the length of `im`. -/
structure State where
  xlen   : Xlen
  regs   : List Value
  dm     : Memory
  sf     : Bool
  zf     : Bool
  pc     : Nat
  im     : List Word
  status : Status
deriving DecidableEq, Repr

/-- Why a step stops. -/
inductive Fault where
  /-- Raised by `step` when `status` is `halted`: the run has ended and no cycle executes (R23; log entry 5). Safe. -/
  | runHalted
  /-- Raised by `step` when `status` is `failed(kind)`: the run was aborted and no cycle executes (R23, R190;
  log entry 5). Safe. -/
  | runFailed (kind : FailureKind)
deriving DecidableEq, Repr

/-- Why an instruction has no meaning. -/
inductive Refusal where
  /-- Raised by a refused arm of `exec`, for an instruction without a meaning. Safe. No arm raises it. -/
  | notModelled (mnemonic : String)
deriving DecidableEq, Repr

/-- The default machine right after reset (R25, R210): 16 registers of 0, 16 cells of 0, an empty store, pc 0, the two
open flag values, running (log entries 2 and 3). Every other machine is `construct` of its parameters. -/
def State.reset : State where
  xlen   := Config.xlen
  regs   := List.replicate Config.nregs 0
  dm     := { size := Config.dmemSize, cells := [] }
  sf     := Config.sfInit
  zf     := Config.zfInit
  pc     := 0
  im     := []
  status := .running

end Sys2Proof.Machine
end

