-- ==== Sys2Proof/Machine/Ops.lean ====
section
/-! DEFINITION. The shared operations: the primitives of spec/00_scope.md R242, the fetch, the pc, taking a failure
(spec/60_exceptions.md R190), and the canonical form of data memory. An operation that can raise answers an `Except`,
so that a failing instruction drops everything it computed and writes nothing. -/

namespace Sys2Proof.Machine

/-! Data memory as a list in canonical form. -/

/-- The value of cell `a`. -/
def cellAt : List (Nat × Value) → Nat → Value
  | [], _ => Config.unlistedCell
  | (k, v) :: rest, a => if k = a then v else cellAt rest a

/-- A cell in front of the list, unless it holds what an unlisted cell holds. -/
def consCell (a : Nat) (v : Value) (cells : List (Nat × Value)) : List (Nat × Value) :=
  if v = Config.unlistedCell then cells else (a, v) :: cells

/-- The list with cell `a` holding `v`, in canonical form. -/
def putCell : List (Nat × Value) → Nat → Value → List (Nat × Value)
  | [], a, v => consCell a v []
  | (k, u) :: rest, a, v =>
    if a < k then consCell a v ((k, u) :: rest)
    else if a = k then consCell a v rest
    else (k, u) :: putCell rest a v

/-- Addresses strictly rising from `lo` and below `size`, and no pair an unlisted cell would make. -/
def cellsWf (size : Nat) : Nat → List (Nat × Value) → Bool
  | _, [] => true
  | lo, (k, v) :: rest =>
    decide (lo ≤ k) && decide (k < size) && decide (v ≠ Config.unlistedCell) && cellsWf size (k + 1) rest

/-- The canonical form of data memory. -/
def Memory.wf (m : Memory) : Bool := cellsWf m.size 0 m.cells

/-- The value of cell `a`: what a program or the host reads there when the cell exists. -/
def Memory.get (m : Memory) (a : Nat) : Value := cellAt m.cells a

/-- The memory with cell `a` holding `v`. -/
def Memory.put (m : Memory) (a : Nat) (v : Value) : Memory := { m with cells := putCell m.cells a v }

/-- R33: an access at address `a` succeeds iff `0 <= a < DMEM_SIZE`. -/
def Memory.inBounds (m : Memory) (a : Int) : Bool := decide (0 ≤ a) && decide (a < (m.size : Int))

/-- Data memory filled with the values from address `a` on. -/
def Memory.fill (m : Memory) (a : Nat) : List Value → Memory
  | [] => m
  | v :: rest => Memory.fill (m.put a v) (a + 1) rest

/-! The primitives of R242. -/

/-- NREGS: the length fixed at construction (R11). -/
def State.nregs (s : State) : Nat := s.regs.length

/-- PROG_LEN (R20). -/
def State.progLen (s : State) : Nat := s.im.length

/-- `x[i]`, a register read (R242, R11). -/
def readReg (s : State) (i : Nat) : Except Failure Value :=
  match s.regs[i]? with
  | some v => .ok v
  | none => .error (.bounds .reg i)

/-- `x[i] <- v`, a register write (R242, R11). -/
def writeReg (s : State) (i : Nat) (v : Value) : Except Failure State :=
  if i < s.nregs then .ok { s with regs := s.regs.set i v } else .error (.bounds .reg i)

/-- `MemRead(a, 1)` (R242, R33). -/
def memRead (s : State) (a : Int) : Except Failure Value :=
  if s.dm.inBounds a then .ok (s.dm.get a.toNat) else .error (.bounds .dmem a)

/-- `MemWrite(a, 1, v)` (R242, R33). -/
def memWrite (s : State) (a : Int) (v : Value) : Except Failure State :=
  if s.dm.inBounds a then .ok { s with dm := s.dm.put a.toNat v } else .error (.bounds .dmem a)

/-- `Fetch(pc)`; none exactly when `pc >= PROG_LEN`, the halt test (R35, R101). -/
def fetch (s : State) : Option Word := s.im[s.pc]?

/-- `pc <- pc + 1` (R106). -/
def State.advance (s : State) : State := { s with pc := s.pc + 1 }

/-- The end of a branch: the literal as an absolute index when taken, else the next index (R106, R161). -/
def State.branch (s : State) (taken : Bool) (target : Nat) : State :=
  { s with pc := if taken then target else s.pc + 1 }

/-! Ends of a cycle and of a run. -/

/-- The halt test met: `status <- halted`, nothing else changes (R101). -/
def State.halt (s : State) : State := { s with status := .halted }

/-- Taking a failure (R190): `status <- failed(kind)`; no register, cell or flag is written, pc keeps the index of the
failing instruction, nothing is saved and control goes nowhere (R191). The info is dropped (R182). -/
def raiseFailure (s : State) (f : Failure) : State := { s with status := .failed f.kind }

/-- What stands where a return from a failure would: there is none (R192), and a terminal status is left only by the
host's new run (R218, R221), `status <- running`. -/
def State.startRun (s : State) : State := { s with status := .running }

/-- The end of an instruction begun in `s`: its new state, or the failure it raised taken in `s` (R105, R190). -/
def finish (s : State) (r : Except Failure State) : Host.Outcome State Fault Refusal :=
  match r with
  | .ok t => .next t
  | .error f => .next (raiseFailure s f)

end Sys2Proof.Machine
end

