-- ==== Sys2Proof/Machine/Operands.lean ====
section
/-! DEFINITION. The operand forms (spec/30_encoding.md R52, R57; spec/20_memory.md R32): a register, the literal, a data
cell named by an address field, a data cell named by a register's contents. -/

namespace Sys2Proof.Machine

/-- The literal as an operand: zero-extended, 0 .. 255, never negative (R57, R241). -/
def literal (l : Nat) : Value := (l : Int)

/-- An address field used as a data address: the number it holds, unscaled (R57, R32). -/
def directAddress (field : Nat) : Int := (field : Int)

/-- The data cell an address field names (R32, MOV_RD). -/
def loadDirect (s : State) (b : Nat) : Except Failure Value := memRead s (directAddress b)

/-- The data cell that register `b`'s contents name: one level of indirection (R32, R125). -/
def loadIndirect (s : State) (b : Nat) : Except Failure Value := do
  let p ← readReg s b
  memRead s p

/-- The store to the cell an address field names (R32, MOV_DR). -/
def storeDirect (s : State) (a : Nat) (v : Value) : Except Failure State := memWrite s (directAddress a) v

end Sys2Proof.Machine
end

