-- ==== Sys2Proof/Machine/Flags.lean ====
section
/-! DEFINITION. The ALU's arithmetic, the range test and the flags (spec/42_arithmetic_compare.md R140 to R142,
spec/40_dispatch_cycle.md R107 `Arith`). -/

namespace Sys2Proof.Machine

/-- XLEN is at least 9, or unbounded (R9). -/
def xlenValid : Xlen → Bool
  | .bits n => decide (9 ≤ n)
  | .unbounded => true

/-- `InRange(v)` of R242: the two's-complement range of R9. -/
def inRange (x : Xlen) (v : Value) : Bool :=
  match x with
  | .unbounded => true
  | .bits n => decide (-((2 ^ (n - 1) : Nat) : Int) ≤ v) && decide (v ≤ ((2 ^ (n - 1) : Nat) : Int) - 1)

/-- The exact sum (R140). -/
def aluAdd (p q : Value) : Value := p + q

/-- The exact difference, op1 minus the second operand (R140). -/
def aluSub (p q : Value) : Value := p - q

/-- `ZF <- (res = 0)` (R141). -/
def zeroFlag (res : Value) : Bool := decide (res = 0)

/-- `SF <- (res < 0)` (R141). -/
def signFlag (res : Value) : Bool := decide (res < 0)

/-- Both flags from the exact result; their old values do not enter (R141). -/
def setFlags (s : State) (res : Value) : State := { s with zf := zeroFlag res, sf := signFlag res }

/-- `Arith(res, write = true)` of R107: the range test, then the register, then the flags (R142). -/
def arithStore (s : State) (a : Nat) (res : Value) : Except Failure State :=
  if inRange s.xlen res then do
    let t ← writeReg s a res
    pure (setFlags t res)
  else .error (.valueRange res)

/-- `Arith(res, write = false)` of R107: a compare stores nothing, so the result is not range-checked (R142). -/
def arithCompare (s : State) (res : Value) : State := setFlags s res

end Sys2Proof.Machine
end

