-- ==== Sys2Proof/Machine/Arith.lean ====
section
/-! DEFINITION. The arithmetic and compare instructions (spec/42_arithmetic_compare.md). -/

namespace Sys2Proof.Machine

/-- ADD_RR (R144). -/
def execAddRR (a b : Nat) (s : State) : Host.Outcome State Fault Refusal :=
  finish s do
    let p ← readReg s a
    let q ← readReg s b
    let t ← arithStore s a (aluAdd p q)
    pure t.advance

/-- ADD_RI (R145). -/
def execAddRI (a l : Nat) (s : State) : Host.Outcome State Fault Refusal :=
  finish s do
    let p ← readReg s a
    let t ← arithStore s a (aluAdd p (literal l))
    pure t.advance

/-- SUB_RR (R146): op1 minus op2, never the reverse. -/
def execSubRR (a b : Nat) (s : State) : Host.Outcome State Fault Refusal :=
  finish s do
    let p ← readReg s a
    let q ← readReg s b
    let t ← arithStore s a (aluSub p q)
    pure t.advance

/-- SUB_RI (R147). -/
def execSubRI (a l : Nat) (s : State) : Host.Outcome State Fault Refusal :=
  finish s do
    let p ← readReg s a
    let t ← arithStore s a (aluSub p (literal l))
    pure t.advance

/-- CMP_RR (R148). -/
def execCmpRR (a b : Nat) (s : State) : Host.Outcome State Fault Refusal :=
  finish s do
    let p ← readReg s a
    let q ← readReg s b
    pure (arithCompare s (aluSub p q)).advance

/-- CMP_RI (R149). -/
def execCmpRI (a l : Nat) (s : State) : Host.Outcome State Fault Refusal :=
  finish s do
    let p ← readReg s a
    pure (arithCompare s (aluSub p (literal l))).advance

end Sys2Proof.Machine
end

