-- ==== Sys2Proof/Machine/Branch.lean ====
section
/-! DEFINITION. The conditional branches (spec/43_branches.md): one flag read, pc written, no failure (R160). -/

namespace Sys2Proof.Machine

/-- JS (R162). -/
def execJs (l : Nat) (s : State) : Host.Outcome State Fault Refusal := .next (s.branch s.sf l)

/-- JNS (R163). -/
def execJns (l : Nat) (s : State) : Host.Outcome State Fault Refusal := .next (s.branch (!s.sf) l)

/-- JNE (R164). -/
def execJne (l : Nat) (s : State) : Host.Outcome State Fault Refusal := .next (s.branch (!s.zf) l)

/-- JE (R165). -/
def execJe (l : Nat) (s : State) : Host.Outcome State Fault Refusal := .next (s.branch s.zf l)

end Sys2Proof.Machine
end

