-- ==== Sys2Proof/Machine/Transfer.lean ====
section
/-! DEFINITION. The data transfer instructions (spec/41_data_transfer.md). None writes a flag (R120). -/

namespace Sys2Proof.Machine

/-- MOV_RR (R121). -/
def execMovRR (a b : Nat) (s : State) : Host.Outcome State Fault Refusal :=
  finish s do
    let v ← readReg s b
    let t ← writeReg s a v
    pure t.advance

/-- MOV_RI (R122). -/
def execMovRI (a l : Nat) (s : State) : Host.Outcome State Fault Refusal :=
  finish s do
    let t ← writeReg s a (literal l)
    pure t.advance

/-- MOV_RD (R123): op2 is a data address, not a register index. -/
def execMovRD (a b : Nat) (s : State) : Host.Outcome State Fault Refusal :=
  finish s do
    let v ← loadDirect s b
    let t ← writeReg s a v
    pure t.advance

/-- MOV_DR (R124): op1 is a data address, not a register index. -/
def execMovDR (a b : Nat) (s : State) : Host.Outcome State Fault Refusal :=
  finish s do
    let v ← readReg s b
    let t ← storeDirect s a v
    pure t.advance

/-- MOV_RX (R125): the address is read before the register is overwritten, so `a = b` is allowed. -/
def execMovRX (a b : Nat) (s : State) : Host.Outcome State Fault Refusal :=
  finish s do
    let v ← loadIndirect s b
    let t ← writeReg s a v
    pure t.advance

/-- XCHG (R126): both reads come before either write. -/
def execXchg (a b : Nat) (s : State) : Host.Outcome State Fault Refusal :=
  finish s do
    let v ← readReg s a
    let u ← readReg s b
    let t ← writeReg s a u
    let t ← writeReg t b v
    pure t.advance

end Sys2Proof.Machine
end

