-- ==== Sys2Proof/Machine/Dispatch.lean ====
section
/-! DEFINITION. The dispatch (spec/40_dispatch_cycle.md R104): one arm per operation, each one call of its meaning. -/

namespace Sys2Proof.Machine

-- The instruction's meaning in a state, whatever its run status: `step` looks at the status.
def exec (i : Instr) (s : State) : Host.Outcome State Fault Refusal :=
  match i with
  | .movRR a b => Sys2Proof.Machine.execMovRR a b s
  | .movRI a l => Sys2Proof.Machine.execMovRI a l s
  | .movRD a b => Sys2Proof.Machine.execMovRD a b s
  | .movDR a b => Sys2Proof.Machine.execMovDR a b s
  | .xchg a b => Sys2Proof.Machine.execXchg a b s
  | .addRR a b => Sys2Proof.Machine.execAddRR a b s
  | .addRI a l => Sys2Proof.Machine.execAddRI a l s
  | .subRR a b => Sys2Proof.Machine.execSubRR a b s
  | .subRI a l => Sys2Proof.Machine.execSubRI a l s
  | .cmpRR a b => Sys2Proof.Machine.execCmpRR a b s
  | .cmpRI a l => Sys2Proof.Machine.execCmpRI a l s
  | .js l => Sys2Proof.Machine.execJs l s
  | .jns l => Sys2Proof.Machine.execJns l s
  | .jne l => Sys2Proof.Machine.execJne l s
  | .movRX a b => Sys2Proof.Machine.execMovRX a b s
  | .je l => Sys2Proof.Machine.execJe l s

end Sys2Proof.Machine
end

