-- ==== Sys2Proof/Machine/Step.lean ====
section
/-! DEFINITION. One cycle (spec/40_dispatch_cycle.md R100 to R107), and the placing of one instruction where the next
cycle fetches. -/

namespace Sys2Proof.Machine

/-- `Step` of R107, which "is defined when `status = running`": the halt test, the fetch, the decode, the dispatch. In a
terminal status no cycle executes (R23): the step stops under a name (log entry 5). The halt test is a step of its own,
as a cycle that begins past the end only sets the status (R101; log entry 15). -/
def step (s : State) : Host.Outcome State Fault Refusal :=
  match s.status with
  | .halted => .fault .runHalted
  | .failed k => .fault (.runFailed k)
  | .running =>
    match fetch s with
    | none => .next s.halt
    | some w =>
      match decode w with
      | .error f => .next (raiseFailure s f)
      | .ok i => exec i s

/-- `s` with a word of `nbits` bits at the index the next cycle fetches, and running: it stands for the load of a
program from outside (R217, R218, R225; log entry 4). A store that ends before pc is filled up to it with zero words. -/
def State.withFetchWord (s : State) (nbits w : Nat) : State :=
  { s with
    im := s.im.take s.pc ++ List.replicate (s.pc - s.im.length) 0 ++
      BitVec.ofNat 32 (w % 2 ^ nbits) :: s.im.drop (s.pc + 1)
    status := .running }

end Sys2Proof.Machine
end

