-- ==== Sys2Proof/Machine/Blocks.lean ====
section
/-! DEFINITION. The six blocks of the CORE and the cycle they make (spec/40_dispatch_cycle.md R112 to R116). They add no
behaviour to `step` (R112), as the obligation BlocksComputeTheCycle says. The encoder block is
Machine/Encoder.lean and the decoder block `decodeFields`. -/

namespace Sys2Proof.Machine

/-! Register file (R113). -/

/-- A read port's answer: the value before the cycle's writes, and its bounds error. -/
structure ReadPort where
  data  : Value
  error : Bool
deriving DecidableEq, Repr

/-- A read port: a disabled port's index is ignored (log entry 17: its data is then 0, which nothing uses). -/
def readPort (regs : List Value) (enable : Bool) (index : Nat) : ReadPort :=
  if enable then { data := regs.getD index 0, error := decide (regs.length ≤ index) }
  else { data := 0, error := false }

/-- A write port's bounds error: signalled by an enabled port only. -/
def writePortError (regs : List Value) (enable : Bool) (index : Nat) : Bool :=
  enable && decide (regs.length ≤ index)

/-- A write port's effect on the register file. -/
def writePort (regs : List Value) (enable : Bool) (index : Nat) (data : Value) : List Value :=
  if enable then regs.set index data else regs

/-! ALU (R114). -/

/-- The ALU's outputs. -/
structure AluOut where
  res        : Value
  zf         : Bool
  sf         : Bool
  rangeError : Bool
deriving DecidableEq, Repr

/-- The ALU: `p + q` or `p - q` over the integers, the flags, the range error (R114). -/
def alu (x : Xlen) (p q : Value) (subtract : Bool) : AluOut :=
  let res := if subtract then p - q else p + q
  { res := res, zf := decide (res = 0), sf := decide (res < 0), rangeError := !inRange x res }

/-! Program counter (R115). -/

/-- The next pc. -/
def pcBlock (pc : Nat) (advance taken : Bool) (target : Nat) : Nat :=
  if advance then (if taken then target else pc + 1) else pc

/-! Control-flow dispatcher (R116). -/

/-- The `write A` column: what goes to register op1. -/
inductive WriteA where
  | no
  | readB
  | literal
  | dmData
  | aluRes
deriving DecidableEq, Repr

/-- The `DM access` column. -/
inductive DmAccess where
  | no
  | readOp2
  | writeOp1
  | readAtB
deriving DecidableEq, Repr

/-- One row of the control table, less `taken`. -/
structure Control where
  readA      : Bool
  readB      : Bool
  qLiteral   : Bool
  subtract   : Bool
  writeA     : WriteA
  writeB     : Bool
  dm         : DmAccess
  flagsWrite : Bool
deriving DecidableEq, Repr

/-- The control table of R116; a row it does not have (no 4-bit opcode) does nothing. -/
def controlSignals (opc : Nat) : Control :=
  match opc with
  | 0 => ⟨false, true, false, false, .readB, false, .no, false⟩
  | 1 => ⟨false, false, false, false, .literal, false, .no, false⟩
  | 2 => ⟨false, false, false, false, .dmData, false, .readOp2, false⟩
  | 3 => ⟨false, true, false, false, .no, false, .writeOp1, false⟩
  | 4 => ⟨true, true, false, false, .readB, true, .no, false⟩
  | 5 => ⟨true, true, false, false, .aluRes, false, .no, true⟩
  | 6 => ⟨true, false, true, false, .aluRes, false, .no, true⟩
  | 7 => ⟨true, true, false, true, .aluRes, false, .no, true⟩
  | 8 => ⟨true, false, true, true, .aluRes, false, .no, true⟩
  | 9 => ⟨true, true, false, true, .no, false, .no, true⟩
  | 10 => ⟨true, false, true, true, .no, false, .no, true⟩
  | 14 => ⟨false, true, false, false, .dmData, false, .readAtB, false⟩
  | _ => ⟨false, false, false, false, .no, false, .no, false⟩

/-- The `taken` signal of R116. -/
def takenSignal (opc : Nat) (sf zf : Bool) : Bool :=
  (opc == 11 && sf) || (opc == 12 && !sf) || (opc == 13 && !zf) || (opc == 15 && zf)

/-! The data path. -/

/-- The data-memory address of the cycle (R116). -/
def dmAddress (f : Fields) (b : Value) : DmAccess → Int
  | .no => 0
  | .readOp2 => (f.op2 : Int)
  | .writeOp1 => (f.op1 : Int)
  | .readAtB => b

/-- The data for write port A (R116). -/
def writeAData (f : Fields) (b dmData res : Value) : WriteA → Value
  | .no => 0
  | .readB => b
  | .literal => (f.literal : Int)
  | .dmData => dmData
  | .aluRes => res

/-- One cycle of the blocks on the word fetched: decode, control, reads, ALU, every bounds test, the range test, and
then all the writes, or the failure and none of them (R105, R112, R187). -/
def blockCycle (s : State) (w : Word) : State :=
  let f := decodeFields w
  let c := controlSignals f.opcode
  let portA := readPort s.regs c.readA f.op1
  let portB := readPort s.regs c.readB f.op2
  let q := if c.qLiteral then (f.literal : Int) else portB.data
  let out := alu s.xlen portA.data q c.subtract
  let addr := dmAddress f portB.data c.dm
  let dmError := decide (c.dm ≠ .no) && !s.dm.inBounds addr
  let enableA := decide (c.writeA ≠ .no)
  let boundsError := portA.error || portB.error || dmError ||
    writePortError s.regs enableA f.op1 || writePortError s.regs c.writeB f.op2
  let rangeError := decide (c.writeA = .aluRes) && out.rangeError
  let taken := takenSignal f.opcode s.sf s.zf
  if boundsError then { s with status := .failed .boundsFailure, pc := pcBlock s.pc false taken f.literal }
  else if rangeError then { s with status := .failed .valueRangeFailure, pc := pcBlock s.pc false taken f.literal }
  else
    { s with
      regs := writePort (writePort s.regs enableA f.op1
          (writeAData f portB.data (s.dm.get addr.toNat) out.res c.writeA)) c.writeB f.op2 portA.data
      dm := if c.dm = .writeOp1 then s.dm.put addr.toNat portB.data else s.dm
      sf := if c.flagsWrite then out.sf else s.sf
      zf := if c.flagsWrite then out.zf else s.zf
      pc := pcBlock s.pc true taken f.literal }

end Sys2Proof.Machine
end

