-- ==== Sys2Proof/Machine/Encoder.lean ====
section
/-! DEFINITION. The encoder block (spec/30_encoding.md R59 to R70): from a mnemonic or jump kind and operands to a word, or
a failure. -/

namespace Sys2Proof.Machine

/-- The two-operand mnemonics (R59). -/
inductive Mnemonic where
  | mov
  | cmp
  | add
  | sub
  | xchg
deriving DecidableEq, Repr

/-- The jump kinds (R59). -/
inductive JumpKind where
  | js
  | jns
  | jne
  | je
deriving DecidableEq, Repr

/-- The operand kinds (R60). -/
inductive OperandKind where
  | reg
  | dat
  | lit
  | ind
deriving DecidableEq, Repr

/-- A classified operand: its kind and its value, an integer not yet range-checked (R60). -/
structure Operand where
  kind  : OperandKind
  value : Int
deriving DecidableEq, Repr

/-- The opcode a mnemonic and a pair of kinds select (R63 to R67); every other pair is a UsageFailure (R69). -/
def selectOpcode : Mnemonic → OperandKind → OperandKind → Except Failure Nat
  | .mov, .reg, .reg => .ok 0
  | .mov, .reg, .lit => .ok 1
  | .mov, .reg, .dat => .ok 2
  | .mov, .dat, .reg => .ok 3
  | .mov, .reg, .ind => .ok 14
  | .xchg, .reg, .reg => .ok 4
  | .add, .reg, .reg => .ok 5
  | .add, .reg, .lit => .ok 6
  | .sub, .reg, .reg => .ok 7
  | .sub, .reg, .lit => .ok 8
  | .cmp, .reg, .reg => .ok 9
  | .cmp, .reg, .lit => .ok 10
  | _, _, _ => .error .usage

/-- A jump kind's opcode (R68). -/
def jumpOpcode : JumpKind → Nat
  | .js => 11
  | .jns => 12
  | .jne => 13
  | .je => 15

/-- The largest value of the field a kind goes to (R62). -/
def fieldMax : OperandKind → Nat
  | .lit => 255
  | .reg => 15
  | .dat => 15
  | .ind => 15

/-- The range check of R62: the disjunction `v > max OR v < 0` refuses. -/
def checkRange (o : Operand) : Except Failure Nat :=
  if o.value > (fieldMax o.kind : Int) ∨ o.value < 0 then .error (.range o.value) else .ok o.value.toNat

/-- Packing, after the width test of R70. -/
def packWord (opc lit dst a b : Nat) : Except Failure Word :=
  let p := pack opc lit dst a b
  if p > 2 ^ 32 - 1 then .error (.width p) else .ok (BitVec.ofNat 32 p)

/-- `Encode(mn, o1, o2)` of R59, its tests in the order of R70: the pair of kinds, the first operand's range, the
second's, the width. The fields are filled as R61 says. -/
def encodeOperands (mn : Mnemonic) (o1 o2 : Operand) : Except Failure Word := do
  let opc ← selectOpcode mn o1.kind o2.kind
  let a ← checkRange o1
  let v ← checkRange o2
  if o2.kind = .lit then packWord opc v a a 0 else packWord opc 0 a a v

/-- `EncodeJump(k, t)` of R59 (R68). -/
def encodeJump (k : JumpKind) (t : Int) : Except Failure Word := do
  let l ← checkRange { kind := .lit, value := t }
  packWord (jumpOpcode k) l 0 0 0

/-- What the encoder is given for an instruction. -/
inductive Source where
  | operands (mn : Mnemonic) (o1 o2 : Operand)
  | jump (k : JumpKind) (target : Int)
deriving DecidableEq, Repr

/-- The assembler form of an instruction (R75): the opcode determines the mnemonic and the kinds (R72). -/
def sourceOf : Instr → Source
  | .movRR a b => .operands .mov ⟨.reg, a⟩ ⟨.reg, b⟩
  | .movRI a l => .operands .mov ⟨.reg, a⟩ ⟨.lit, l⟩
  | .movRD a b => .operands .mov ⟨.reg, a⟩ ⟨.dat, b⟩
  | .movDR a b => .operands .mov ⟨.dat, a⟩ ⟨.reg, b⟩
  | .xchg a b => .operands .xchg ⟨.reg, a⟩ ⟨.reg, b⟩
  | .addRR a b => .operands .add ⟨.reg, a⟩ ⟨.reg, b⟩
  | .addRI a l => .operands .add ⟨.reg, a⟩ ⟨.lit, l⟩
  | .subRR a b => .operands .sub ⟨.reg, a⟩ ⟨.reg, b⟩
  | .subRI a l => .operands .sub ⟨.reg, a⟩ ⟨.lit, l⟩
  | .cmpRR a b => .operands .cmp ⟨.reg, a⟩ ⟨.reg, b⟩
  | .cmpRI a l => .operands .cmp ⟨.reg, a⟩ ⟨.lit, l⟩
  | .js l => .jump .js l
  | .jns l => .jump .jns l
  | .jne l => .jump .jne l
  | .movRX a b => .operands .mov ⟨.reg, a⟩ ⟨.ind, b⟩
  | .je l => .jump .je l

/-- The encoder on either entry point. -/
def encodeSource : Source → Except Failure Word
  | .operands mn o1 o2 => encodeOperands mn o1 o2
  | .jump k t => encodeJump k t

end Sys2Proof.Machine
end

