-- ==== Sys2Proof/Machine/Assembler.lean ====
section
/-! DEFINITION. The assembler (spec/30_encoding.md R78 to R94): text lines to words in two passes, or a failure. Lines are
lists of characters. -/

namespace Sys2Proof.Machine

/-- A line, a token or a label name. -/
abbrev Text := List Char

/-- What stands in the instruction stream between the passes (R86): a word, or a jump whose label is not yet resolved. -/
inductive Slot where
  | resolved (w : Word)
  | pendingJump (k : JumpKind) (label : Text)
deriving DecidableEq, Repr

/-- The state of pass one (R87): the slots so far and the label table. -/
structure PassOne where
  out    : List Slot
  labels : List (Text × Nat)
deriving DecidableEq, Repr

/-- What a first token names (R81). -/
inductive Keyword where
  | operation (mn : Mnemonic)
  | jump (k : JumpKind)
  | set
deriving DecidableEq, Repr

/-! Lexical level. -/

/-- The token separators: space, comma, colon (R80; log entry 18). -/
def isSeparator (c : Char) : Bool := c == ' ' || c == ',' || c == ':'

/-- A text cut at every character that `p` holds of; empty pieces stay. -/
def cutAt (p : Char → Bool) : Text → List Text
  | [] => [[]]
  | c :: rest =>
    if p c then [] :: cutAt p rest
    else
      match cutAt p rest with
      | [] => [[c]]
      | piece :: more => (c :: piece) :: more

/-- The tokens of a line (R80): empty pieces are dropped. -/
def tokens (line : Text) : List Text := (cutAt isSeparator line).filter (fun t => !t.isEmpty)

/-- Spaces removed from both ends (R85). -/
def stripSpaces (t : Text) : Text :=
  ((t.dropWhile (· == ' ')).reverse.dropWhile (· == ' ')).reverse

/-- A decimal digit's value (R82; log entry 10). -/
def digitValue (c : Char) : Option Nat :=
  if '0'.toNat ≤ c.toNat ∧ c.toNat ≤ '9'.toNat then some (c.toNat - '0'.toNat) else none

/-- The number whose digits follow those of `acc`. -/
def digitsFrom (acc : Nat) : Text → Option Nat
  | [] => some acc
  | c :: rest =>
    match digitValue c with
    | some d => digitsFrom (10 * acc + d) rest
    | none => none

/-- One or more decimal digits. -/
def parseNat : Text → Option Nat
  | [] => none
  | c :: rest => digitsFrom 0 (c :: rest)

/-- An integer: an optional `-` then one or more decimal digits (R82). -/
def parseInt : Text → Option Int
  | '-' :: rest => (parseNat rest).map (fun n => -(n : Int))
  | t => (parseNat t).map (fun n => (n : Int))

/-- A register token: `r` then an integer (R82). -/
def registerToken : Text → Option Int
  | 'r' :: rest => parseInt rest
  | _ => none

/-- A data-cell token: `d` then an integer (R82). -/
def cellToken : Text → Option Int
  | 'd' :: rest => parseInt rest
  | _ => none

/-- What stands between a leading `[` and a trailing `]`. -/
def bracketed : Text → Option Text
  | '[' :: rest =>
    match rest.reverse with
    | ']' :: inside => some inside.reverse
    | _ => none
  | _ => none

/-- `[`, a register token, `]` (R82). -/
def indirectToken (t : Text) : Option Int := (bracketed t).bind registerToken

/-- The operand classifier, its tests in the order of R82: a plain integer is always a literal (R83). -/
def classify (t : Text) : Except Failure Operand :=
  match parseInt t with
  | some v => .ok { kind := .lit, value := v }
  | none =>
    match indirectToken t with
    | some n => .ok { kind := .ind, value := n }
    | none =>
      match registerToken t with
      | some n => .ok { kind := .reg, value := n }
      | none =>
        match cellToken t with
        | some n => .ok { kind := .dat, value := n }
        | none => .error .malformed

/-- The mnemonics, lower case only (R81); any other first token is unknown. -/
def keyword (t : Text) : Option Keyword :=
  if t = "mov".toList then some (.operation .mov)
  else if t = "cmp".toList then some (.operation .cmp)
  else if t = "add".toList then some (.operation .add)
  else if t = "sub".toList then some (.operation .sub)
  else if t = "xchg".toList then some (.operation .xchg)
  else if t = "js".toList then some (.jump .js)
  else if t = "jns".toList then some (.jump .jns)
  else if t = "jne".toList then some (.jump .jne)
  else if t = "je".toList then some (.jump .je)
  else if t = "set".toList then some .set
  else none

/-! The `set` pseudo-instruction. -/

/-- The integers of a list of texts, if each is one. -/
def parseInts : List Text → Option (List Int)
  | [] => some []
  | t :: rest =>
    match parseInt (stripSpaces t), parseInts rest with
    | some v, some vs => some (v :: vs)
    | _, _ => none

/-- The integers of a `set` line (R91): `set`, then `[`, integers with commas between, `]` (log entry 9). -/
def setList (line : Text) : Option (List Int) :=
  match stripSpaces line with
  | 's' :: 'e' :: 't' :: rest =>
    match bracketed (stripSpaces rest) with
    | some inside => parseInts (cutAt (· == ',') inside)
    | none => none
  | _ => none

/-- The lines `mov r0, <v>` and `mov d<i>, r0` for each value from position `i` on (R92). -/
def setStores (i : Nat) : List Int → List Source
  | [] => []
  | v :: rest =>
    .operands .mov ⟨.reg, Config.scratch⟩ ⟨.lit, v⟩ ::
    .operands .mov ⟨.dat, i⟩ ⟨.reg, Config.scratch⟩ ::
    setStores (i + 1) rest

/-- `SetExpansion` of R92: the stores, then `mov r0, 0`. The first integer is the count of the others; a list that
disagrees with its count is a SyntaxFailure. -/
def setExpansion : List Int → Except Failure (List Source)
  | [] => .error .malformed
  | c :: values =>
    if c = (values.length : Int) then
      .ok (setStores 0 values ++ [.operands .mov ⟨.reg, Config.scratch⟩ ⟨.lit, 0⟩])
    else .error .malformed

/-- Each line encoded as an ordinary line, in order. -/
def encodeAll : List Source → Except Failure (List Word)
  | [] => .ok []
  | x :: rest => do
    let w ← encodeSource x
    let ws ← encodeAll rest
    pure (w :: ws)

/-! Pass one. -/

/-- The slots of a line that carries no label (R87). -/
def lineSlots (line : Text) : Except Failure (List Slot) :=
  match tokens line with
  | [] => .error .malformed
  | first :: operands =>
    match keyword first with
    | none => .error .malformed
    | some (.jump k) =>
      match operands with
      | [label] => .ok [.pendingJump k label]
      | _ => .error .malformed
    | some .set =>
      match setList line with
      | none => .error .malformed
      | some values => do
        let sources ← setExpansion values
        let ws ← encodeAll sources
        pure (ws.map .resolved)
    | some (.operation mn) =>
      match operands with
      | [t1, t2] => do
        let o1 ← classify t1
        let o2 ← classify t2
        let w ← encodeOperands mn o1 o2
        pure [.resolved w]
      | _ => .error .malformed

/-- The index a label is bound to. -/
def lookupLabel (label : Text) : List (Text × Nat) → Option Nat
  | [] => none
  | (name, n) :: rest => if name = label then some n else lookupLabel label rest

/-- A label name is one non-empty token (R85). -/
def isLabelName (name : Text) : Bool := !name.isEmpty && !name.any isSeparator

/-- Pass one on one line (R85, R87). A line that contains a colon is label-prefixed (log entry 11). -/
def passOneLine (p : PassOne) (line : Text) : Except Failure PassOne :=
  if line.contains ':' then
    let name := stripSpaces (line.takeWhile (· != ':'))
    let rest := (line.dropWhile (· != ':')).tail
    if isLabelName name && !rest.contains ':' && (lookupLabel name p.labels).isNone then do
      let slots ← lineSlots rest
      pure { out := p.out ++ slots, labels := (name, p.out.length) :: p.labels }
    else .error .malformed
  else do
    let slots ← lineSlots line
    pure { p with out := p.out ++ slots }

/-- Pass one (R87): the lines in order. -/
def passOne (p : PassOne) : List Text → Except Failure PassOne
  | [] => .ok p
  | line :: rest => do
    let q ← passOneLine p line
    passOne q rest

/-! Pass two. -/

/-- A slot's word (R88). -/
def resolveSlot (labels : List (Text × Nat)) : Slot → Except Failure Word
  | .resolved w => .ok w
  | .pendingJump k label =>
    match lookupLabel label labels with
    | none => .error (.resolution label)
    | some n => encodeJump k (n : Int)

/-- Pass two (R88): the slots in order. -/
def passTwo (labels : List (Text × Nat)) : List Slot → Except Failure (List Word)
  | [] => .ok []
  | x :: rest => do
    let w ← resolveSlot labels x
    let ws ← passTwo labels rest
    pure (w :: ws)

/-- The assembler (R78): all the words, or the failure and no words. -/
def assemble (lines : List Text) : Except Failure (List Word) := do
  let p ← passOne { out := [], labels := [] } lines
  passTwo p.labels p.out

end Sys2Proof.Machine
end

