-- ==== Sys2Proof/Machine/HostOps.lean ====
section
/-! DEFINITION. Construction (spec/70_reset_and_hazards.md R210 to R212) and the host's operations (R216 to R222). -/

namespace Sys2Proof.Machine

/-! Construction. -/

/-- DMEM_SIZE (R8). -/
def dmemSize : DmemInput → Nat
  | .contents values => values.length
  | .size n => n

/-- DMEM_INIT: the supplied contents, or nothing to add to the zero fill (R8). -/
def dmemInit : DmemInput → List Value
  | .contents values => values
  | .size _ => []

/-- R212: the inputs a machine can be constructed from; XLEN as R9 requires (log entry 13). -/
def paramsValid (p : Params) : Bool :=
  decide (1 ≤ p.nregs) && decide (p.nregs ≤ 16) && xlenValid p.xlen &&
  (dmemInit p.dmem).all (inRange p.xlen) && p.prog.all (fun w => decide (w < 2 ^ 32))

/-- The state of R25 for the given arguments. -/
def initialState (p : Params) : State where
  xlen   := p.xlen
  regs   := List.replicate p.nregs 0
  dm     := Memory.fill { size := dmemSize p.dmem, cells := [] } 0 (dmemInit p.dmem)
  sf     := p.sfInit
  zf     := p.zfInit
  pc     := 0
  im     := p.prog.map (BitVec.ofNat 32)
  status := .running

/-- Reset is construction (R210); invalid inputs construct no machine (R212). -/
def construct (p : Params) : Option State := if paramsValid p then some (initialState p) else none

/-! The host's operations, each of which acts between runs (R218; log entry 12). -/

/-- Append one or more words (R217). -/
def appendWords (w : Word) (ws : List Word) (s : State) : State := { s with im := s.im ++ w :: ws }

/-- Reset instruction store (R219). -/
def resetStore (s : State) : State := { s with im := [], pc := 0 }

/-- Reset all registers to zero (R220). -/
def resetRegisters (s : State) : State := { s with regs := List.replicate s.nregs 0 }

/-- What a read shows the host (R216, R221). -/
structure Snapshot where
  regs : List Value
  dmem : List Value
  sf   : Bool
  zf   : Bool
  pc   : Nat
deriving DecidableEq, Repr

/-- Read (R221). -/
def readState (s : State) : Snapshot where
  regs := s.regs
  dmem := (List.range s.dm.size).map s.dm.get
  sf   := s.sf
  zf   := s.zf
  pc   := s.pc

/-- How a bounded run comes back (R218, R222). -/
inductive RunResult where
  /-- The run ended; the status of `s` says how. -/
  | ended (s : State)
  /-- The host's bound came first: `s` is neither halted nor failed. -/
  | outOfFuel (s : State)
deriving DecidableEq, Repr

/-- `Step` repeated until the status is terminal, under the host's bound on cycles (R108, R218, R222). -/
def runFrom : Nat → State → RunResult
  | 0, s =>
    match s.status with
    | .running => .outOfFuel s
    | _ => .ended s
  | n + 1, s =>
    match s.status with
    | .running =>
      match step s with
      | .next t => runFrom n t
      | _ => .ended s
    | _ => .ended s

/-- Run to completion (R218): `status <- running`, then the cycles from the current pc; nothing is reset first. -/
def run (fuel : Nat) (s : State) : RunResult := runFrom fuel s.startRun

/-- The host's operations as data (R216). -/
inductive HostOp where
  | append (w : Word) (ws : List Word)
  | run (fuel : Nat)
  | resetStore
  | resetRegisters
  | read
deriving DecidableEq, Repr

/-- The state one operation leaves; `readState` is what a read shows. A run cut by the host's bound answers none
(log entry 12). -/
def hostApply (s : State) : HostOp → Option State
  | .append w ws => some (appendWords w ws s)
  | .run fuel =>
    match run fuel s with
    | .ended t => some t
    | .outOfFuel _ => none
  | .resetStore => some (Sys2Proof.Machine.resetStore s)
  | .resetRegisters => some (Sys2Proof.Machine.resetRegisters s)
  | .read => some s

/-- The operations one after another (R218: none is interleaved with a run). -/
def hostSession (s : State) : List HostOp → Option State
  | [] => some s
  | op :: rest =>
    match hostApply s op with
    | some t => hostSession t rest
    | none => none

end Sys2Proof.Machine
end

