-- ==== Sys2Proof/Safety.lean ====
section
/-! DEFINITION. What counts as a legal state and a safe run, in the terms the obligations use. -/

namespace Sys2Proof.Machine

/-- The ways a run-time status can be (R181: a run ends in `halted`, `failed(e)` or `failed(v)`). -/
def statusLegal : Status → Bool
  | .running => true
  | .halted => true
  | .failed .boundsFailure => true
  | .failed .valueRangeFailure => true
  | .failed _ => false

/-- The invariant of every machine that construction makes: NREGS and XLEN are admitted (R7, R9), every register and
every cell holds a Value (R22), data memory is in canonical form, the status is one a run can have. -/
abbrev State.Inv (s : State) : Prop :=
  1 ≤ s.nregs ∧ s.nregs ≤ 16 ∧ xlenValid s.xlen = true ∧
  (∀ v ∈ s.regs, inRange s.xlen v = true) ∧
  s.dm.wf = true ∧ (∀ c ∈ s.dm.cells, inRange s.xlen c.2 = true) ∧
  statusLegal s.status = true

/-- R14: the largest value pc takes. -/
abbrev State.PcInv (s : State) : Prop := s.pc ≤ max s.progLen 255

/-- R16: `ZF=1, SF=1` does not hold. -/
abbrev State.FlagsInv (s : State) : Prop := ¬(s.sf = true ∧ s.zf = true)

/-- No failure has been raised. -/
abbrev State.Safe (s : State) : Prop := ∀ k, s.status ≠ .failed k

/-- The six arithmetic and compare instructions, opcodes 5 to 10 (R16). -/
def isArithmetic : Instr → Bool
  | .addRR _ _ => true
  | .addRI _ _ => true
  | .subRR _ _ => true
  | .subRI _ _ => true
  | .cmpRR _ _ => true
  | .cmpRI _ _ => true
  | _ => false

/-- The four branches (R160). -/
def isBranch : Instr → Bool
  | .js _ => true
  | .jns _ => true
  | .jne _ => true
  | .je _ => true
  | _ => false

/-- The four instructions that store an arithmetic result: ADD and SUB (R142, R184). -/
def storesResult : Instr → Bool
  | .addRR _ _ => true
  | .addRI _ _ => true
  | .subRR _ _ => true
  | .subRI _ _ => true
  | _ => false

/-- The table of R182: the index of the instruction that lies outside the store it is tested against. -/
def indexOutside (i : Instr) (s : State) : Bool :=
  match i with
  | .movRR a b | .xchg a b | .addRR a b | .subRR a b | .cmpRR a b =>
    decide (s.nregs ≤ a) || decide (s.nregs ≤ b)
  | .movRI a _ | .addRI a _ | .subRI a _ | .cmpRI a _ => decide (s.nregs ≤ a)
  | .movRD a b => decide (s.nregs ≤ a) || decide (s.dm.size ≤ b)
  | .movDR a b => decide (s.nregs ≤ b) || decide (s.dm.size ≤ a)
  | .movRX a b =>
    decide (s.nregs ≤ a) || decide (s.nregs ≤ b) ||
      match s.regs[b]? with
      | some p => decide (p < 0) || decide ((s.dm.size : Int) ≤ p)
      | none => false
  | .js _ | .jns _ | .jne _ | .je _ => false

/-- The exact sum or difference of the six arithmetic instructions (R140), where the operands exist. -/
def arithResult (i : Instr) (s : State) : Option Int :=
  match i with
  | .addRR a b =>
    match s.regs[a]?, s.regs[b]? with
    | some p, some q => some (p + q)
    | _, _ => none
  | .subRR a b | .cmpRR a b =>
    match s.regs[a]?, s.regs[b]? with
    | some p, some q => some (p - q)
    | _, _ => none
  | .addRI a l => (s.regs[a]?).map (fun p => p + (l : Int))
  | .subRI a l | .cmpRI a l => (s.regs[a]?).map (fun p => p - (l : Int))
  | _ => none

/-- The registers an instruction writes when it completes (the last column of R12's table). -/
def registersWritten : Instr → List Nat
  | .movRR a _ | .movRI a _ | .movRD a _ | .movRX a _ => [a]
  | .addRR a _ | .addRI a _ | .subRR a _ | .subRI a _ => [a]
  | .xchg a b => [a, b]
  | .movDR _ _ | .cmpRR _ _ | .cmpRI _ _ => []
  | .js _ | .jns _ | .jne _ | .je _ => []

/-- The target of a branch that is taken in `s` (R162 to R165); none for a branch not taken and any other
instruction. -/
def takenTarget (i : Instr) (s : State) : Option Nat :=
  match i with
  | .js l => if s.sf = true then some l else none
  | .jns l => if s.sf = false then some l else none
  | .jne l => if s.zf = false then some l else none
  | .je l => if s.zf = true then some l else none
  | _ => none

/-- Two states that agree on everything but the flags (R109). -/
def sameUpToFlags (s t : State) : Prop := t = { s with sf := t.sf, zf := t.zf }

/-- What no instruction changes: XLEN, the instruction store, NREGS, DMEM_SIZE (R10, R11, R20, R21). -/
def SameMachine (s t : State) : Prop :=
  t.xlen = s.xlen ∧ t.im = s.im ∧ t.nregs = s.nregs ∧ t.dm.size = s.dm.size

/-- Every data cell reads as before. -/
def SameCells (s t : State) : Prop := ∀ addr : Nat, t.dm.get addr = s.dm.get addr

/-- Both flags are as before. -/
def SameFlags (s t : State) : Prop := t.sf = s.sf ∧ t.zf = s.zf

/-- The words executed one after another, whatever pc is: for the expansion of `set` (R92), which holds no branch. -/
def execWords : List Word → State → Option State
  | [], s => some s
  | w :: ws, s =>
    match decode w with
    | .error _ => none
    | .ok i =>
      match exec i s with
      | .next t => execWords ws t
      | _ => none

/-- The encoding of a form with two address fields (R55, R61, R75): every word with the opcode decodes to it with op1
and op2, whatever its other bits are, and the encoder's word for it is `Pack(opc, 0, a, a, b)`. -/
def HasEncodingRR (opc : Nat) (mn : Mnemonic) (k1 k2 : OperandKind) (form : Nat → Nat → Instr) : Prop :=
  (∀ w : Word, bits w 31 28 = opc → decode w = .ok (form (bits w 7 4) (bits w 3 0))) ∧
  ∀ a b : Nat, a ≤ 15 → b ≤ 15 →
    encodeOperands mn ⟨k1, a⟩ ⟨k2, b⟩ = .ok (BitVec.ofNat 32 (pack opc 0 a a b))

/-- The encoding of a form with a register and the literal: `Pack(opc, l, a, a, 0)`. -/
def HasEncodingRI (opc : Nat) (mn : Mnemonic) (form : Nat → Nat → Instr) : Prop :=
  (∀ w : Word, bits w 31 28 = opc → decode w = .ok (form (bits w 7 4) (bits w 19 12))) ∧
  ∀ a l : Nat, a ≤ 15 → l ≤ 255 →
    encodeOperands mn ⟨.reg, a⟩ ⟨.lit, l⟩ = .ok (BitVec.ofNat 32 (pack opc l a a 0))

/-- The encoding of a branch: `Pack(opc, l, 0, 0, 0)`. -/
def HasEncodingJ (opc : Nat) (k : JumpKind) (form : Nat → Instr) : Prop :=
  (∀ w : Word, bits w 31 28 = opc → decode w = .ok (form (bits w 19 12))) ∧
  ∀ l : Nat, l ≤ 255 → encodeJump k l = .ok (BitVec.ofNat 32 (pack opc l 0 0 0))

end Sys2Proof.Machine
end

