-- ==== Sys2Proof/Certificates/Slice0/Obligations.lean ====
section
/-! DEFINITION. The statements for the provers. Each docstring names the rule of spec/ it formalises. -/

open Sys2Proof Sys2Proof.Machine

/-! Encoding. -/

/-- Words written out by hand from R51's layout (95_test_vectors.md V-D1 to V-D12, V-N0 to V-N15). -/
def Obligations.SpecWordsDecode : Prop :=
  decode 0x00000112 = .ok (.movRR 1 2) ∧ decode 0x100C8330 = .ok (.movRI 3 200) ∧
  decode 0x20000225 = .ok (.movRD 2 5) ∧ decode 0x30000552 = .ok (.movDR 5 2) ∧
  decode 0xE0000441 = .ok (.movRX 4 1) ∧ decode 0x5FF00A12 = .ok (.addRR 1 2) ∧
  decode 0x8FFFF11F = .ok (.subRI 1 255) ∧ decode 0xFFFFFFFF = .ok (.je 255)

/-- Decoding the word of a well-formed instruction gives the instruction back (R55, R61, R75). -/
def Obligations.DecodeOfEncodeIsIdentity : Prop :=
  ∀ i : Instr, WellFormed i = true → decode (encode i) = .ok i

/-- R72, both directions: what the encoder is given is what the decoder reads; a canonical word re-encodes to itself and
any word to the canonical word of the same instruction; the map from mnemonic and kinds to opcode is injective. -/
def Obligations.EncoderRoundTrips : Prop :=
  (∀ mn k1 k2 opc (a v : Int) w, selectOpcode mn k1 k2 = .ok opc → encodeOperands mn ⟨k1, a⟩ ⟨k2, v⟩ = .ok w →
    (decodeFields w).opcode = opc ∧ ((decodeFields w).op1 : Int) = a ∧
    (k2 ≠ .lit → ((decodeFields w).op2 : Int) = v) ∧ (k2 = .lit → ((decodeFields w).literal : Int) = v)) ∧
  (∀ k (t : Int) w, encodeJump k t = .ok w →
    (decodeFields w).opcode = jumpOpcode k ∧ ((decodeFields w).literal : Int) = t) ∧
  (∀ w i, canonical w = true → decode w = .ok i → encodeSource (sourceOf i) = .ok w) ∧
  (∀ w i, decode w = .ok i →
    ∃ w', encodeSource (sourceOf i) = .ok w' ∧ canonical w' = true ∧ decode w' = .ok i) ∧
  (∀ mn k1 k2 mn' k1' k2' opc, selectOpcode mn k1 k2 = .ok opc → selectOpcode mn' k1' k2' = .ok opc →
    mn = mn' ∧ k1 = k1' ∧ k2 = k2')

/-- R56: the opcode of a word is always 0 .. 15, every word decodes, to a well-formed instruction, and only a number
above 15 would reach the DecodeFailure arm. -/
def Obligations.EveryWordDecodes : Prop :=
  (∀ w : Word, (decodeFields w).opcode ≤ 15) ∧
  (∀ w : Word, ∃ i, decode w = .ok i ∧ WellFormed i = true) ∧
  (∀ f : Fields, 15 < f.opcode → selectInstr f = .error (.decode f.opcode))

/-- R58 (that a word with such bits set executes is the spec's own decision D8): the don't-care bits. Words that agree
on the opcode and on the fields it uses are the same instruction. -/
def Obligations.UnusedBitsAreIgnored : Prop :=
  ∀ w w' : Word, bits w 31 28 = bits w' 31 28 →
    (bits w 31 28 ∈ [0, 2, 3, 4, 5, 7, 9, 14] → bits w 7 4 = bits w' 7 4 ∧ bits w 3 0 = bits w' 3 0) →
    (bits w 31 28 ∈ [1, 6, 8, 10] → bits w 19 12 = bits w' 19 12 ∧ bits w 7 4 = bits w' 7 4) →
    (bits w 31 28 ∈ [11, 12, 13, 15] → bits w 19 12 = bits w' 19 12) →
    decode w = decode w'

/-- R71 without its count (the fill of dest and of unused fields is the spec's own decisions D6 and D7): a word is
canonical, said of its bits, exactly when the encoder can produce it. -/
def Obligations.CanonicalWordsAreTheEncodersOutput : Prop :=
  ∀ w : Word, canonical w = true ↔ ∃ x : Source, encodeSource x = .ok w

/-- R62 (the spec's own decisions D1 and D2, on the source's advice): a value of a register, data or indirect operand
outside 0 .. 15, a literal or a target outside 0 .. 255, is a RangeFailure, and no value inside is refused. That a bad
first operand is the one named, whatever the second is, is the order of tests of R70, the spec's own decision D10 (log
entry 7). -/
def Obligations.EncoderRefusesOutOfRange : Prop :=
  (∀ mn (o1 o2 : Operand) opc, selectOpcode mn o1.kind o2.kind = .ok opc →
    ((o1.value < 0 ∨ 15 < o1.value) → encodeOperands mn o1 o2 = .error (.range o1.value)) ∧
    (0 ≤ o1.value → o1.value ≤ 15 →
      (o2.value < 0 ∨ (if o2.kind = .lit then 255 else 15) < o2.value) →
        encodeOperands mn o1 o2 = .error (.range o2.value)) ∧
    (0 ≤ o1.value → o1.value ≤ 15 → 0 ≤ o2.value → o2.value ≤ (if o2.kind = .lit then 255 else 15) →
      ∃ w, encodeOperands mn o1 o2 = .ok w)) ∧
  (∀ k (t : Int), ((t < 0 ∨ 255 < t) → encodeJump k t = .error (.range t)) ∧
    (0 ≤ t → t ≤ 255 → ∃ w, encodeJump k t = .ok w))

/-- R63 to R67 and R69: the twelve accepted pairs of kinds with their words, and UsageFailure for every other pair (the
spec's own decision D14). -/
def Obligations.EncoderAcceptsTheListedPairs : Prop :=
  (∀ a b : Nat, a ≤ 15 → b ≤ 15 →
    encodeOperands .mov ⟨.reg, a⟩ ⟨.reg, b⟩ = .ok (BitVec.ofNat 32 (pack 0 0 a a b)) ∧
    encodeOperands .mov ⟨.reg, a⟩ ⟨.dat, b⟩ = .ok (BitVec.ofNat 32 (pack 2 0 a a b)) ∧
    encodeOperands .mov ⟨.dat, a⟩ ⟨.reg, b⟩ = .ok (BitVec.ofNat 32 (pack 3 0 a a b)) ∧
    encodeOperands .mov ⟨.reg, a⟩ ⟨.ind, b⟩ = .ok (BitVec.ofNat 32 (pack 14 0 a a b)) ∧
    encodeOperands .xchg ⟨.reg, a⟩ ⟨.reg, b⟩ = .ok (BitVec.ofNat 32 (pack 4 0 a a b)) ∧
    encodeOperands .add ⟨.reg, a⟩ ⟨.reg, b⟩ = .ok (BitVec.ofNat 32 (pack 5 0 a a b)) ∧
    encodeOperands .sub ⟨.reg, a⟩ ⟨.reg, b⟩ = .ok (BitVec.ofNat 32 (pack 7 0 a a b)) ∧
    encodeOperands .cmp ⟨.reg, a⟩ ⟨.reg, b⟩ = .ok (BitVec.ofNat 32 (pack 9 0 a a b))) ∧
  (∀ a v : Nat, a ≤ 15 → v ≤ 255 →
    encodeOperands .mov ⟨.reg, a⟩ ⟨.lit, v⟩ = .ok (BitVec.ofNat 32 (pack 1 v a a 0)) ∧
    encodeOperands .add ⟨.reg, a⟩ ⟨.lit, v⟩ = .ok (BitVec.ofNat 32 (pack 6 v a a 0)) ∧
    encodeOperands .sub ⟨.reg, a⟩ ⟨.lit, v⟩ = .ok (BitVec.ofNat 32 (pack 8 v a a 0)) ∧
    encodeOperands .cmp ⟨.reg, a⟩ ⟨.lit, v⟩ = .ok (BitVec.ofNat 32 (pack 10 v a a 0))) ∧
  (∀ mn (o1 o2 : Operand),
    (mn, o1.kind, o2.kind) ∉ [(.mov, .reg, .reg), (.mov, .reg, .lit), (.mov, .reg, .dat), (.mov, .dat, .reg),
      (.mov, .reg, .ind), (.xchg, .reg, .reg), (.add, .reg, .reg), (.add, .reg, .lit), (.sub, .reg, .reg),
      (.sub, .reg, .lit), (.cmp, .reg, .reg), (.cmp, .reg, .lit)] →
    encodeOperands mn o1 o2 = .error .usage)

/-- R70 (the order is the spec's own decision D10): the order of the encoder's tests is kinds, first range, second
range; no accepted word is above `0xF00FFFFF` and WidthFailure is never raised. -/
def Obligations.WidthFailureIsNeverRaised : Prop :=
  (∀ x : Source, ∀ w, encodeSource x = .ok w → w.toNat ≤ 0xF00FFFFF) ∧
  (∀ x : Source, ∀ n, encodeSource x ≠ .error (.width n)) ∧
  (∀ mn (o1 o2 : Operand) f, selectOpcode mn o1.kind o2.kind = .error f → encodeOperands mn o1 o2 = .error f) ∧
  (∀ mn (o1 o2 : Operand) opc, selectOpcode mn o1.kind o2.kind = .ok opc → (o1.value < 0 ∨ 15 < o1.value) →
    encodeOperands mn o1 o2 = .error (.range o1.value))

/-! The assembler. -/

/-- R92 (the spec's own decision D19): the expansion of `set` is the 2c+1 lines of the rule, a list that disagrees
with its count is refused, and the expansion's words store the values in cells 0 .. c-1, leave 0 in r0 and change
nothing else, when data memory is in the model's canonical form (log entry 6). -/
def Obligations.SetStoresItsValues : Prop :=
  (∀ (c : Int) (values : List Int), c ≠ (values.length : Int) → setExpansion (c :: values) = .error .malformed) ∧
  (∀ values : List Int, ∃ sources, setExpansion ((values.length : Int) :: values) = .ok sources ∧
    sources.length = 2 * values.length + 1 ∧
    (∀ (i : Nat) (v : Int), values[i]? = some v →
      sources[2 * i]? = some (.operands .mov ⟨.reg, 0⟩ ⟨.lit, v⟩) ∧
      sources[2 * i + 1]? = some (.operands .mov ⟨.dat, i⟩ ⟨.reg, 0⟩)) ∧
    sources[2 * values.length]? = some (.operands .mov ⟨.reg, 0⟩ ⟨.lit, 0⟩)) ∧
  (∀ (values : List Int) sources ws (s : State), setExpansion ((values.length : Int) :: values) = .ok sources →
    encodeAll sources = .ok ws → 1 ≤ s.nregs → values.length ≤ s.dm.size → s.dm.wf = true →
    ∃ t, execWords ws s = some t ∧
      (∀ (i : Nat) (v : Int), values[i]? = some v → t.dm.get i = v) ∧
      (∀ addr, values.length ≤ addr → t.dm.get addr = s.dm.get addr) ∧
      t.regs = s.regs.set 0 0 ∧ SameFlags s t ∧ SameMachine s t ∧ t.status = s.status ∧
      t.pc = s.pc + (2 * values.length + 1))

/-- No word the assembler gives is anything but encoder output: no placeholder and no corrupt word reaches the CORE
(R71, R78, R86). -/
def Obligations.AssembledWordsAreCanonical : Prop :=
  ∀ (lines : List Text) ws, assemble lines = .ok ws → ∀ w ∈ ws, canonical w = true

/-- An assembled jump never targets PROG_LEN or beyond (R89). -/
def Obligations.AssembledJumpsStayInside : Prop :=
  ∀ (lines : List Text) ws, assemble lines = .ok ws →
    ∀ w ∈ ws, (decodeFields w).opcode ∈ [11, 12, 13, 15] → (decodeFields w).literal < ws.length

/-- R88: pass two keeps every word and replaces every placeholder by the jump to its label's index, or fails. That the
first placeholder that cannot be resolved decides the failure, whatever follows it, is the spec's own decision D10
(log entry 7). -/
def Obligations.PassTwoResolvesEveryJump : Prop :=
  (∀ (labels : List (Text × Nat)) (out : List Slot) (ws : List Word), passTwo labels out = .ok ws ↔
    ws.length = out.length ∧
    (∀ (i : Nat) (w : Word), out[i]? = some (Slot.resolved w) → ws[i]? = some w) ∧
    (∀ (i : Nat) k label, out[i]? = some (Slot.pendingJump k label) →
      ∃ n w, lookupLabel label labels = some n ∧ encodeJump k (n : Int) = .ok w ∧ ws[i]? = some w)) ∧
  (∀ (labels : List (Text × Nat)) (before after : List Slot) (ws : List Word) k label, passTwo labels before = .ok ws →
    (lookupLabel label labels = none →
      passTwo labels (before ++ .pendingJump k label :: after) = .error (.resolution label)) ∧
    (∀ n, lookupLabel label labels = some n → 255 < n →
      passTwo labels (before ++ .pendingJump k label :: after) = .error (.range n)))

/-! Data transfer: encoding, result with the whole next state, failures (`raise` of R242: an early exit that leaves the
state as it was). -/

/-- R121. -/
def Obligations.MovRegisterToRegister : Prop :=
  HasEncodingRR 0 .mov .reg .reg .movRR ∧
  ∀ (a b : Nat) (s : State),
    (∀ v, s.regs[b]? = some v → a < s.nregs →
      exec (.movRR a b) s = .next { s with regs := s.regs.set a v, pc := s.pc + 1 }) ∧
    (s.nregs ≤ b ∨ s.nregs ≤ a → exec (.movRR a b) s = .next { s with status := .failed .boundsFailure })

/-- R122: the literal is zero-extended. -/
def Obligations.MovLiteralToRegister : Prop :=
  HasEncodingRI 1 .mov .movRI ∧
  ∀ (a l : Nat) (s : State),
    (a < s.nregs → exec (.movRI a l) s = .next { s with regs := s.regs.set a (l : Int), pc := s.pc + 1 }) ∧
    (s.nregs ≤ a → exec (.movRI a l) s = .next { s with status := .failed .boundsFailure })

/-- R123: op2 is a data address and is not tested against NREGS. -/
def Obligations.MovCellToRegister : Prop :=
  HasEncodingRR 2 .mov .reg .dat .movRD ∧
  ∀ (a b : Nat) (s : State),
    (b < s.dm.size → a < s.nregs →
      exec (.movRD a b) s = .next { s with regs := s.regs.set a (s.dm.get b), pc := s.pc + 1 }) ∧
    (s.dm.size ≤ b ∨ s.nregs ≤ a → exec (.movRD a b) s = .next { s with status := .failed .boundsFailure })

/-- R124: op1 is a data address and is not tested against NREGS. The cell holds the register's value afterwards and
every other cell reads as before: this clause takes as its premise that data memory is in the model's canonical form
(log entry 6), which `StepKeepsTheInvariant` keeps. -/
def Obligations.MovRegisterToCell : Prop :=
  HasEncodingRR 3 .mov .dat .reg .movDR ∧
  ∀ (a b : Nat) (s : State),
    (∀ v, s.regs[b]? = some v → a < s.dm.size →
      exec (.movDR a b) s = .next { s with dm := s.dm.put a v, pc := s.pc + 1 } ∧
      (s.dm.wf = true → ∀ addr, (s.dm.put a v).get addr = if addr = a then v else s.dm.get addr)) ∧
    (s.nregs ≤ b ∨ s.dm.size ≤ a → exec (.movDR a b) s = .next { s with status := .failed .boundsFailure })

/-- R125: one level of indirection; a negative address does not wrap. -/
def Obligations.MovIndirectToRegister : Prop :=
  HasEncodingRR 14 .mov .reg .ind .movRX ∧
  ∀ (a b : Nat) (s : State),
    (∀ p, s.regs[b]? = some p → 0 ≤ p → p < (s.dm.size : Int) → a < s.nregs →
      exec (.movRX a b) s = .next { s with regs := s.regs.set a (s.dm.get p.toNat), pc := s.pc + 1 }) ∧
    (∀ p, s.regs[b]? = some p → p < 0 ∨ (s.dm.size : Int) ≤ p →
      exec (.movRX a b) s = .next { s with status := .failed .boundsFailure }) ∧
    (s.nregs ≤ b ∨ s.nregs ≤ a → exec (.movRX a b) s = .next { s with status := .failed .boundsFailure })

/-- R126: the exchange; with one bad index neither register changes. -/
def Obligations.ExchangeSwapsRegisters : Prop :=
  HasEncodingRR 4 .xchg .reg .reg .xchg ∧
  ∀ (a b : Nat) (s : State),
    (∀ v u, s.regs[a]? = some v → s.regs[b]? = some u →
      exec (.xchg a b) s = .next { s with regs := (s.regs.set a u).set b v, pc := s.pc + 1 } ∧
      ((s.regs.set a u).set b v)[a]? = some u ∧ ((s.regs.set a u).set b v)[b]? = some v) ∧
    (s.nregs ≤ a ∨ s.nregs ≤ b → exec (.xchg a b) s = .next { s with status := .failed .boundsFailure })

/-! Arithmetic: encoding, result and flags with the whole next state, failures. That a stored result out of range raises
ValueRangeFailure is the spec's own choice (92_eei_decisions.md D4). -/

/-- R144; the ValueRangeFailure is the spec's own decision D4 (R142). -/
def Obligations.AddRegister : Prop :=
  HasEncodingRR 5 .add .reg .reg .addRR ∧
  ∀ (a b : Nat) (s : State),
    (∀ p q, s.regs[a]? = some p → s.regs[b]? = some q → inRange s.xlen (p + q) = true →
      exec (.addRR a b) s = .next { s with
        regs := s.regs.set a (p + q), zf := decide (p + q = 0), sf := decide (p + q < 0), pc := s.pc + 1 }) ∧
    (∀ p q, s.regs[a]? = some p → s.regs[b]? = some q → inRange s.xlen (p + q) = false →
      exec (.addRR a b) s = .next { s with status := .failed .valueRangeFailure }) ∧
    (s.nregs ≤ a ∨ s.nregs ≤ b → exec (.addRR a b) s = .next { s with status := .failed .boundsFailure })

/-- R145; the ValueRangeFailure is the spec's own decision D4 (R142). -/
def Obligations.AddLiteral : Prop :=
  HasEncodingRI 6 .add .addRI ∧
  ∀ (a l : Nat) (s : State),
    (∀ p, s.regs[a]? = some p → inRange s.xlen (p + (l : Int)) = true →
      exec (.addRI a l) s = .next { s with
        regs := s.regs.set a (p + (l : Int)), zf := decide (p + (l : Int) = 0), sf := decide (p + (l : Int) < 0),
        pc := s.pc + 1 }) ∧
    (∀ p, s.regs[a]? = some p → inRange s.xlen (p + (l : Int)) = false →
      exec (.addRI a l) s = .next { s with status := .failed .valueRangeFailure }) ∧
    (s.nregs ≤ a → exec (.addRI a l) s = .next { s with status := .failed .boundsFailure })

/-- R146: op1 minus op2; the ValueRangeFailure is the spec's own decision D4 (R142). -/
def Obligations.SubtractRegister : Prop :=
  HasEncodingRR 7 .sub .reg .reg .subRR ∧
  ∀ (a b : Nat) (s : State),
    (∀ p q, s.regs[a]? = some p → s.regs[b]? = some q → inRange s.xlen (p - q) = true →
      exec (.subRR a b) s = .next { s with
        regs := s.regs.set a (p - q), zf := decide (p - q = 0), sf := decide (p - q < 0), pc := s.pc + 1 }) ∧
    (∀ p q, s.regs[a]? = some p → s.regs[b]? = some q → inRange s.xlen (p - q) = false →
      exec (.subRR a b) s = .next { s with status := .failed .valueRangeFailure }) ∧
    (s.nregs ≤ a ∨ s.nregs ≤ b → exec (.subRR a b) s = .next { s with status := .failed .boundsFailure })

/-- R147; the ValueRangeFailure is the spec's own decision D4 (R142). -/
def Obligations.SubtractLiteral : Prop :=
  HasEncodingRI 8 .sub .subRI ∧
  ∀ (a l : Nat) (s : State),
    (∀ p, s.regs[a]? = some p → inRange s.xlen (p - (l : Int)) = true →
      exec (.subRI a l) s = .next { s with
        regs := s.regs.set a (p - (l : Int)), zf := decide (p - (l : Int) = 0), sf := decide (p - (l : Int) < 0),
        pc := s.pc + 1 }) ∧
    (∀ p, s.regs[a]? = some p → inRange s.xlen (p - (l : Int)) = false →
      exec (.subRI a l) s = .next { s with status := .failed .valueRangeFailure }) ∧
    (s.nregs ≤ a → exec (.subRI a l) s = .next { s with status := .failed .boundsFailure })

/-- R148: flags only, from the exact difference, never a ValueRangeFailure. -/
def Obligations.CompareRegister : Prop :=
  HasEncodingRR 9 .cmp .reg .reg .cmpRR ∧
  ∀ (a b : Nat) (s : State),
    (∀ p q, s.regs[a]? = some p → s.regs[b]? = some q →
      exec (.cmpRR a b) s = .next { s with zf := decide (p - q = 0), sf := decide (p - q < 0), pc := s.pc + 1 }) ∧
    (s.nregs ≤ a ∨ s.nregs ≤ b → exec (.cmpRR a b) s = .next { s with status := .failed .boundsFailure })

/-- R149. -/
def Obligations.CompareLiteral : Prop :=
  HasEncodingRI 10 .cmp .cmpRI ∧
  ∀ (a l : Nat) (s : State),
    (∀ p, s.regs[a]? = some p →
      exec (.cmpRI a l) s = .next { s with
        zf := decide (p - (l : Int) = 0), sf := decide (p - (l : Int) < 0), pc := s.pc + 1 }) ∧
    (s.nregs ≤ a → exec (.cmpRI a l) s = .next { s with status := .failed .boundsFailure })

/-! Branches: encoding and the whole next state; no failure (R160). -/

/-- R162. -/
def Obligations.JumpIfSign : Prop :=
  HasEncodingJ 11 .js .js ∧
  ∀ (l : Nat) (s : State), exec (.js l) s = .next { s with pc := if s.sf = true then l else s.pc + 1 }

/-- R163. -/
def Obligations.JumpIfNotSign : Prop :=
  HasEncodingJ 12 .jns .jns ∧
  ∀ (l : Nat) (s : State), exec (.jns l) s = .next { s with pc := if s.sf = false then l else s.pc + 1 }

/-- R164. -/
def Obligations.JumpIfNotEqual : Prop :=
  HasEncodingJ 13 .jne .jne ∧
  ∀ (l : Nat) (s : State), exec (.jne l) s = .next { s with pc := if s.zf = false then l else s.pc + 1 }

/-- R165. -/
def Obligations.JumpIfEqual : Prop :=
  HasEncodingJ 15 .je .je ∧
  ∀ (l : Nat) (s : State), exec (.je l) s = .next { s with pc := if s.zf = true then l else s.pc + 1 }

/-! Frames. They hold whether the instruction completes or fails. -/

/-- The four moves to a register change register `a` and no other, no flag, no cell (R12, R120). -/
def Obligations.MoveFrame : Prop :=
  ∀ (a b : Nat) (i : Instr) (s t : State), i ∈ [Instr.movRR a b, .movRI a b, .movRD a b, .movRX a b] →
    exec i s = .next t →
    (∀ r, r ≠ a → t.regs[r]? = s.regs[r]?) ∧ SameFlags s t ∧ SameCells s t ∧ SameMachine s t

/-- ADD and SUB change register `a` and the two flags, no other register and no cell (R12, R144 to R147). -/
def Obligations.ArithmeticFrame : Prop :=
  ∀ (a b : Nat) (i : Instr) (s t : State), i ∈ [Instr.addRR a b, .addRI a b, .subRR a b, .subRI a b] →
    exec i s = .next t →
    (∀ r, r ≠ a → t.regs[r]? = s.regs[r]?) ∧ SameCells s t ∧ SameMachine s t

/-- CMP changes the two flags, no register and no cell (R12, R148, R149). -/
def Obligations.CompareFrame : Prop :=
  ∀ (a b : Nat) (i : Instr) (s t : State), i ∈ [Instr.cmpRR a b, .cmpRI a b] →
    exec i s = .next t → t.regs = s.regs ∧ SameCells s t ∧ SameMachine s t

/-- The store changes the cell its direct address names, no other cell, no register and no flag (R12, R124). -/
def Obligations.StoreFrame : Prop :=
  ∀ (a b : Nat) (s t : State), exec (.movDR a b) s = .next t →
    t.regs = s.regs ∧ SameFlags s t ∧ SameMachine s t ∧
    ∀ addr : Nat, (addr : Int) ≠ directAddress a → t.dm.get addr = s.dm.get addr

/-- The exchange changes the two registers, no other register, no flag and no cell (R12, R126). -/
def Obligations.ExchangeFrame : Prop :=
  ∀ (a b : Nat) (s t : State), exec (.xchg a b) s = .next t →
    (∀ r, r ≠ a → r ≠ b → t.regs[r]? = s.regs[r]?) ∧ SameFlags s t ∧ SameCells s t ∧ SameMachine s t

/-- A branch changes pc and nothing else, whatever it does (R160). -/
def Obligations.BranchFrame : Prop :=
  ∀ (i : Instr) (s t : State), isBranch i = true → exec i s = .next t →
    t = { s with pc := t.pc } ∧ (t.pc = s.pc + 1 ∨ takenTarget i s = some t.pc)

/-! The cycle. -/

/-- R102 to R105: when the run status is running and the word at pc decodes to `i`, the cycle is the execution of `i`.
-/
def Obligations.StepExecutesTheDecodedInstruction : Prop :=
  ∀ (s : State) (w : Word) (i : Instr), s.status = .running → s.im[s.pc]? = some w → decode w = .ok i →
    step s = exec i s

/-- R101: a cycle that begins with `pc >= PROG_LEN` halts and changes nothing else, and no other cycle halts. -/
def Obligations.HaltTestEndsTheRun : Prop :=
  (∀ s : State, s.status = .running → s.progLen ≤ s.pc → step s = .next { s with status := .halted }) ∧
  (∀ s t : State, s.status = .running → step s = .next t → t.status = .halted → s.progLen ≤ s.pc)

/-- No cycle executes in a terminal status (R23): that the step then stops under these names is the model's choice
(log entry 5). -/
def Obligations.TerminalStatusStopsTheStep : Prop :=
  (∀ s : State, s.status = .halted → step s = .fault .runHalted) ∧
  (∀ (s : State) k, s.status = .failed k → step s = .fault (.runFailed k)) ∧
  (∀ s : State, s.status = .running → ∃ t, step s = .next t)

/-- R106: the pc after a cycle that raised no failure is the literal of a taken branch, else the next index. -/
def Obligations.PcAdvancesOrTakesTheLiteral : Prop :=
  ∀ (s t : State) (w : Word), s.status = .running → s.im[s.pc]? = some w → step s = .next t → t.status = .running →
    t.pc =
      if (bits w 31 28 = 11 ∧ s.sf = true) ∨ (bits w 31 28 = 12 ∧ s.sf = false) ∨
          (bits w 31 28 = 13 ∧ s.zf = false) ∨ (bits w 31 28 = 15 ∧ s.zf = true)
      then bits w 19 12 else s.pc + 1

/-- R190 (the spec's own decision D9): the failing cycle changes the status and nothing else, and no further cycle
executes. That the step then stops with a fault is the model's choice for a terminal status (log entry 5). A new run
started at once fails in the same way (R221). -/
def Obligations.FailureIsPrecise : Prop :=
  ∀ (s t : State) k, s.status = .running → step s = .next t → t.status = .failed k →
    t = { s with status := .failed k } ∧ (∃ f, step t = .fault f) ∧ step t.startRun = .next t

/-- R182 (with the state of R190 and the order of R187, the spec's own decisions D9 and D10): which index of which
instruction is tested against which store; the test comes before everything else, and BoundsFailure is raised on no
other ground. -/
def Obligations.BoundsFailureByTheTable : Prop :=
  (∀ (i : Instr) (s : State), indexOutside i s = true →
    exec i s = .next { s with status := .failed .boundsFailure }) ∧
  (∀ (i : Instr) (s t : State), s.status = .running → indexOutside i s = false → exec i s = .next t →
    t.status ≠ .failed .boundsFailure)

/-- A cycle that executes an instruction is safe exactly when every index it uses exists and the result it stores, if
any, has a place: no other ground for a failure exists (R182, R184, decision D4). -/
def Obligations.CyclesAreSafeExactly : Prop :=
  ∀ (s t : State) (w : Word) (i : Instr), s.status = .running → s.im[s.pc]? = some w → decode w = .ok i →
    step s = .next t →
    (t.Safe ↔ indexOutside i s = false ∧
      (storesResult i = true → ∀ r, arithResult i s = some r → inRange s.xlen r = true))

/-- R184 (the spec's own decision D4): ValueRangeFailure is raised by ADD and SUB exactly when XLEN is finite and the
exact result is out of range. -/
def Obligations.ValueRangeFailureExactly : Prop :=
  ∀ (i : Instr) (s : State), s.status = .running →
    ((∃ t, exec i s = .next t ∧ t.status = .failed .valueRangeFailure) ↔
      storesResult i = true ∧ ∃ r n, arithResult i s = some r ∧ s.xlen = .bits n ∧
        (r < -(2 : Int) ^ (n - 1) ∨ (2 : Int) ^ (n - 1) - 1 < r))

/-- Every instruction completes wherever its indices exist and its stored result has a place (R105, R196): the status is
kept and pc is the taken target or the next index. -/
def Obligations.EveryInstructionCompletes : Prop :=
  ∀ (i : Instr) (s : State), indexOutside i s = false →
    (storesResult i = true → ∀ r, arithResult i s = some r → inRange s.xlen r = true) →
    ∃ t, exec i s = .next t ∧ t.status = s.status ∧ t.pc = (takenTarget i s).getD (s.pc + 1)

/-- R16 and R141: the six arithmetic instructions, when they complete, set both flags from the exact result, so one of
three states holds; every other instruction leaves them, so no step reaches `ZF=1, SF=1` from another state. -/
def Obligations.FlagsFollowTheExactResult : Prop :=
  (∀ (i : Instr) (s t : State), isArithmetic i = true → s.status = .running → exec i s = .next t →
    t.status = .running →
    ∃ r, arithResult i s = some r ∧ t.zf = decide (r = 0) ∧ t.sf = decide (r < 0) ∧
      ((r = 0 ∧ t.zf = true ∧ t.sf = false) ∨ (0 < r ∧ t.zf = false ∧ t.sf = false) ∨
        (r < 0 ∧ t.zf = false ∧ t.sf = true))) ∧
  (∀ (i : Instr) (s t : State), isArithmetic i = false → exec i s = .next t → SameFlags s t) ∧
  (∀ s t : State, s.FlagsInv → step s = .next t → t.FlagsInv)

/-! Invariants. -/

/-- Every step keeps the invariant: admitted sizes and widths, every register and cell in range (R22), data memory in
the model's own canonical form (log entry 6), a status a run can have (R181). -/
def Obligations.StepKeepsTheInvariant : Prop :=
  ∀ s t : State, s.Inv → step s = .next t → t.Inv

/-- The default machine after reset (log entry 3) meets the invariant. -/
def Obligations.ResetMeetsTheInvariant : Prop := State.reset.Inv

/-- Every machine that can be constructed meets the invariants (R22, R25, R212). -/
def Obligations.ConstructedMachinesMeetTheInvariant : Prop :=
  ∀ (p : Params) (s : State), construct p = some s → s.Inv ∧ s.PcInv

/-- Every step keeps `pc <= max(PROG_LEN, 255)`, the bound R14 derives. -/
def Obligations.StepKeepsThePcBound : Prop :=
  ∀ s t : State, s.PcInv → step s = .next t → t.PcInv

/-- No step changes the instruction store, XLEN, NREGS or DMEM_SIZE, and no step changes a cell from 16 on (R20, R21,
R34). -/
def Obligations.StepKeepsTheMachineAndHighCells : Prop :=
  ∀ s t : State, step s = .next t → SameMachine s t ∧ ∀ addr, 16 ≤ addr → t.dm.get addr = s.dm.get addr

/-! Reset and the host. -/

/-- R25: the value of every piece of state after construction, and the immediate halt of an empty program. -/
def Obligations.ConstructionGivesTheResetValues : Prop :=
  ∀ (p : Params) (s : State), construct p = some s →
    s.nregs = p.nregs ∧ (∀ i, i < p.nregs → s.regs[i]? = some 0) ∧
    (∀ values, p.dmem = .contents values →
      s.dm.size = values.length ∧ ∀ a v, values[a]? = some v → s.dm.get a = v) ∧
    (∀ n, p.dmem = .size n → s.dm.size = n ∧ ∀ a, a < n → s.dm.get a = 0) ∧
    s.pc = 0 ∧ s.sf = p.sfInit ∧ s.zf = p.zfInit ∧ s.im.map BitVec.toNat = p.prog ∧ s.xlen = p.xlen ∧
    s.status = .running ∧ (p.prog = [] → step s = .next { s with status := .halted })

/-- Construction refuses exactly the invalid inputs (R212, with R9's bound on XLEN: log entry 13). -/
def Obligations.ConstructionRefusesInvalidInputs : Prop :=
  ∀ p : Params, (∃ s, construct p = some s) ↔
    1 ≤ p.nregs ∧ p.nregs ≤ 16 ∧ (∀ n, p.xlen = .bits n → 9 ≤ n) ∧
    (∀ values, p.dmem = .contents values → ∀ v ∈ values, inRange p.xlen v = true) ∧
    ∀ w ∈ p.prog, w < 2 ^ 32

/-- The state after reset is the construction of the spec's default machine with an empty store (R7, R8, R9; log
entries 2 and 3). -/
def Obligations.ResetIsTheDefaultMachine : Prop :=
  construct ⟨16, .bits 32, .size 16, [], Config.sfInit, Config.zfInit⟩ = some State.reset ∧
  State.reset.pc = 0 ∧ State.reset.im = [] ∧ State.reset.status = .running ∧
  State.reset.regs = List.replicate 16 0 ∧ State.reset.dm = ⟨16, []⟩

/-- R217, R219 and R220: what append, reset-store and reset-registers change, and that they change nothing else
(the spec's own reading, decision D16; log entry 12). -/
def Obligations.HostOperationsChangeOnlyTheirs : Prop :=
  (∀ (w : Word) (ws : List Word) (s : State), appendWords w ws s = { s with im := s.im ++ w :: ws } ∧
    (appendWords w ws s).progLen = s.progLen + (ws.length + 1) ∧
    (s.pc = s.progLen → fetch (appendWords w ws s) = some w)) ∧
  (∀ s : State, resetStore s = { s with im := [], pc := 0 } ∧ (resetStore s).progLen = 0) ∧
  (∀ s : State, resetRegisters s = { s with regs := (resetRegisters s).regs } ∧ (resetRegisters s).nregs = s.nregs ∧
    ∀ i, i < s.nregs → (resetRegisters s).regs[i]? = some 0)

/-- From a constructed machine a run that ends, ends halted past the last word, or failed with BoundsFailure or, finite
XLEN only, with ValueRangeFailure (R110 with decision D21, R181). -/
def Obligations.RunsEndLegally : Prop :=
  ∀ (p : Params) (s t : State) (fuel : Nat), construct p = some s → run fuel s = .ended t →
    (t.status = .halted ∧ t.progLen ≤ t.pc) ∨ t.status = .failed .boundsFailure ∨
    (t.status = .failed .valueRangeFailure ∧ p.xlen ≠ .unbounded)

/-! Whole-machine rules. -/

/-- The six blocks with R116's control table compute the same cycle as `step` (R112 to R116: the decomposition is the
spec's own, decision D17; details in log entry 17). -/
def Obligations.BlocksComputeTheCycle : Prop :=
  ∀ (s : State) (w : Word), s.status = .running → s.im[s.pc]? = some w → step s = .next (blockCycle s w)

/-- R150 (which the spec derives): what each branch tests after a compare of P and Q, and after any completed
arithmetic instruction. -/
def Obligations.BranchAfterCompare : Prop :=
  (∀ (a b l : Nat) (p q : Int) (s t : State), s.regs[a]? = some p →
    (s.regs[b]? = some q ∧ exec (.cmpRR a b) s = .next t ∨ q = (b : Int) ∧ exec (.cmpRI a b) s = .next t) →
    exec (.je l) t = .next { t with pc := if p = q then l else t.pc + 1 } ∧
    exec (.jne l) t = .next { t with pc := if p ≠ q then l else t.pc + 1 } ∧
    exec (.js l) t = .next { t with pc := if p < q then l else t.pc + 1 } ∧
    exec (.jns l) t = .next { t with pc := if q ≤ p then l else t.pc + 1 }) ∧
  (∀ (i : Instr) (l : Nat) (r : Int) (s t : State), storesResult i = true → arithResult i s = some r →
    s.status = .running → exec i s = .next t → t.status = .running →
    exec (.je l) t = .next { t with pc := if r = 0 then l else t.pc + 1 } ∧
    exec (.jne l) t = .next { t with pc := if r ≠ 0 then l else t.pc + 1 } ∧
    exec (.js l) t = .next { t with pc := if r < 0 then l else t.pc + 1 } ∧
    exec (.jns l) t = .next { t with pc := if 0 ≤ r then l else t.pc + 1 })

/-- The reset values of the flags stop mattering at the first arithmetic instruction that completes, and until then they
reach nothing but a branch's pc (R109). It holds for every pair of flag values. -/
def Obligations.InitialFlagsAreForgotten : Prop :=
  (∀ (i : Instr) (s s' t : State), isArithmetic i = true → sameUpToFlags s s' → s.status = .running →
    exec i s = .next t → t.status = .running → exec i s' = .next t) ∧
  (∀ (i : Instr) (s s' t : State), isBranch i = false → sameUpToFlags s s' → exec i s = .next t →
    ∃ t', exec i s' = .next t' ∧ sameUpToFlags t t')

/-- A taken branch to PROG_LEN or beyond ends the run cleanly, with no failure; a taken branch to its own index repeats
for ever (R166). -/
def Obligations.BranchPastTheEndHaltsAndSelfBranchLoops : Prop :=
  ∀ (s : State) (w : Word) (i : Instr) (l : Nat), s.status = .running → s.im[s.pc]? = some w → decode w = .ok i →
    takenTarget i s = some l →
    (s.progLen ≤ l → step s = .next { s with pc := l } ∧
      step { s with pc := l } = .next { s with pc := l, status := .halted }) ∧
    (l = s.pc → ∀ fuel, run fuel s = .outOfFuel s)

/-- A load, direct or indirect, of the cell the last store wrote gives the value stored (R38, R41). Data memory is
assumed in the model's canonical form (log entry 6), which `StepKeepsTheInvariant` keeps. -/
def Obligations.LoadAfterStoreGivesTheValue : Prop :=
  ∀ (a b : Nat) (v : Int) (s : State), s.dm.wf = true → s.regs[b]? = some v → a < s.dm.size →
    ∃ t, exec (.movDR a b) s = .next t ∧
      (∀ c, c < s.nregs → exec (.movRD c a) t = .next { t with regs := t.regs.set c v, pc := t.pc + 1 }) ∧
      (∀ c p, c < s.nregs → s.regs[p]? = some (a : Int) →
        exec (.movRX c p) t = .next { t with regs := t.regs.set c v, pc := t.pc + 1 })
end

