-- ==== Sys2Proof/Laws/Decode.lean ====
section
/-! SUPPORT. The word's fields: their bounds, the fields of a packed word, and the operation an opcode selects. -/

namespace Sys2Proof

theorem bits_lt (w : Word) (hi lo : Nat) : bits w hi lo < 2 ^ (hi - lo + 1) :=
  Nat.mod_lt _ (Nat.two_pow_pos _)

theorem opcode_le (w : Word) : (decodeFields w).opcode ≤ 15 := Nat.le_of_lt_succ (bits_lt w 31 28)
theorem literal_le (w : Word) : (decodeFields w).literal ≤ 255 := Nat.le_of_lt_succ (bits_lt w 19 12)
theorem dest_le (w : Word) : (decodeFields w).dest ≤ 15 := Nat.le_of_lt_succ (bits_lt w 11 8)
theorem op1_le (w : Word) : (decodeFields w).op1 ≤ 15 := Nat.le_of_lt_succ (bits_lt w 7 4)
theorem op2_le (w : Word) : (decodeFields w).op2 ≤ 15 := Nat.le_of_lt_succ (bits_lt w 3 0)

/-- A packed number whose fields fit is at most `0xF00FFFFF` (R70). -/
theorem pack_le {opc lit dst a b : Nat} (ho : opc ≤ 15) (hl : lit ≤ 255) (hd : dst ≤ 15) (ha : a ≤ 15) (hb : b ≤ 15) :
    pack opc lit dst a b ≤ 0xF00FFFFF := by
  simp only [pack, Nat.reducePow]; omega

/-- The fields of a packed word are the ones packed. -/
theorem decodeFields_pack {opc lit dst a b : Nat} (ho : opc ≤ 15) (hl : lit ≤ 255) (hd : dst ≤ 15) (ha : a ≤ 15)
    (hb : b ≤ 15) : decodeFields (BitVec.ofNat 32 (pack opc lit dst a b)) = ⟨opc, lit, dst, a, b⟩ := by
  have h := pack_le ho hl hd ha hb
  have e : (BitVec.ofNat 32 (pack opc lit dst a b)).toNat = pack opc lit dst a b := by
    rw [BitVec.toNat_ofNat, Nat.mod_eq_of_lt (by omega)]
  simp only [decodeFields, bits, e, Fields.mk.injEq]
  simp only [pack, Nat.reducePow, Nat.reduceSub, Nat.reduceAdd]
  refine ⟨?_, ?_, ?_, ?_, ?_⟩ <;> omega

/-- Bits 27:20 of a packed word are zero (R61). -/
theorem unused_pack {opc lit dst a b : Nat} (ho : opc ≤ 15) (hl : lit ≤ 255) (hd : dst ≤ 15) (ha : a ≤ 15)
    (hb : b ≤ 15) : bits (BitVec.ofNat 32 (pack opc lit dst a b)) 27 20 = 0 := by
  have h := pack_le ho hl hd ha hb
  have e : (BitVec.ofNat 32 (pack opc lit dst a b)).toNat = pack opc lit dst a b := by
    rw [BitVec.toNat_ofNat, Nat.mod_eq_of_lt (by omega)]
  simp only [bits, e]
  simp only [pack, Nat.reducePow, Nat.reduceSub, Nat.reduceAdd]
  omega

/-- The fields of a well-formed instruction's word fit. -/
theorem fieldsOf_le {i : Instr} (h : WellFormed i = true) :
    (fieldsOf i).opcode ≤ 15 ∧ (fieldsOf i).literal ≤ 255 ∧ (fieldsOf i).dest ≤ 15 ∧ (fieldsOf i).op1 ≤ 15 ∧
      (fieldsOf i).op2 ≤ 15 := by
  cases i <;> simp_all [WellFormed, isIdx4, isLit8, fieldsOf, opcodeOf]

/-- Bits 27:20 of a well-formed instruction's word are zero (R61). -/
theorem unused_encode {i : Instr} (h : WellFormed i = true) : bits (encode i) 27 20 = 0 := by
  obtain ⟨h1, h2, h3, h4, h5⟩ := fieldsOf_le h
  exact unused_pack h1 h2 h3 h4 h5

/-- A word is its fields and its bits 27:20. -/
theorem toNat_eq_fields (w : Word) :
    w.toNat = pack (decodeFields w).opcode (decodeFields w).literal (decodeFields w).dest (decodeFields w).op1
      (decodeFields w).op2 + bits w 27 20 * 2 ^ 20 := by
  have := w.isLt
  simp only [decodeFields, bits, pack, Nat.reducePow, Nat.reduceSub, Nat.reduceAdd, Nat.div_one]
  omega

/-- The operation selected has the opcode that selected it, and its fields are the ones it uses. -/
theorem selectInstr_ok {f : Fields} {i : Instr} (h : selectInstr f = .ok i) :
    opcodeOf i = f.opcode := by
  unfold selectInstr at h
  split at h <;> first | (cases h; simp_all [opcodeOf]) | cases h

end Sys2Proof
end

