-- ==== Sys2Proof/Laws/Memory.lean ====
section
/-! SUPPORT. Data memory: a read after a write, and the canonical form that every write keeps. -/

namespace Sys2Proof.Machine

theorem cellAt_consCell (cells : List (Nat × Value)) (a b : Nat) (v : Value)
    (h : cellAt cells a = Config.unlistedCell) :
    cellAt (consCell a v cells) b = if a = b then v else cellAt cells b := by
  unfold consCell
  split
  · next hv => split
               · next hb => rw [← hb, h, hv]
               · rfl
  · rfl

theorem cellsWf_mono {size : Nat} {cells : List (Nat × Value)} {lo lo' : Nat} (h : lo' ≤ lo)
    (w : cellsWf size lo cells = true) : cellsWf size lo' cells = true := by
  cases cells with
  | nil => rfl
  | cons c rest =>
    obtain ⟨k, v⟩ := c
    simp only [cellsWf, Bool.and_eq_true, decide_eq_true_eq] at w ⊢
    exact ⟨⟨⟨h.trans w.1.1.1, w.1.1.2⟩, w.1.2⟩, w.2⟩

/-- Below a well-formed list's first address every cell is unlisted. -/
theorem cellAt_below {size : Nat} {cells : List (Nat × Value)} {lo a : Nat} (h : a < lo)
    (w : cellsWf size lo cells = true) : cellAt cells a = Config.unlistedCell := by
  induction cells generalizing lo with
  | nil => rfl
  | cons c rest ih =>
    obtain ⟨k, v⟩ := c
    simp only [cellsWf, Bool.and_eq_true, decide_eq_true_eq] at w
    have hk : k ≠ a := by omega
    simp only [cellAt, if_neg hk]
    exact ih (by omega) w.2

theorem cellAt_putCell {size : Nat} {cells : List (Nat × Value)} {lo : Nat} (w : cellsWf size lo cells = true)
    (a b : Nat) (v : Value) : cellAt (putCell cells a v) b = if a = b then v else cellAt cells b := by
  induction cells generalizing lo with
  | nil => exact cellAt_consCell [] a b v rfl
  | cons c rest ih =>
    obtain ⟨k, u⟩ := c
    have w' := w
    simp only [cellsWf, Bool.and_eq_true, decide_eq_true_eq] at w
    simp only [putCell]
    split
    · next h =>
      refine cellAt_consCell _ a b v (cellAt_below h (size := size) ?_)
      simpa [cellsWf, w.1.1.2, w.2] using w.1.2
    · split
      · next hk =>
        rw [cellAt_consCell rest a b v (cellAt_below (by omega) w.2)]
        simp only [cellAt, ← hk]
        split <;> rfl
      · next hk =>
        simp only [cellAt, ih w.2]
        split
        · next hkb => rw [if_neg (by omega)]
        · rfl

theorem cellsWf_consCell {size : Nat} {cells : List (Nat × Value)} {lo a : Nat} (v : Value) (hlo : lo ≤ a)
    (ha : a < size) (w : cellsWf size (a + 1) cells = true) : cellsWf size lo (consCell a v cells) = true := by
  unfold consCell
  split
  · exact cellsWf_mono (by omega) w
  · next hv => simp [cellsWf, hlo, ha, hv, w]

theorem cellsWf_putCell {size : Nat} {cells : List (Nat × Value)} {lo a : Nat} (v : Value) (hlo : lo ≤ a)
    (ha : a < size) (w : cellsWf size lo cells = true) : cellsWf size lo (putCell cells a v) = true := by
  induction cells generalizing lo with
  | nil => exact cellsWf_consCell v hlo ha rfl
  | cons c rest ih =>
    obtain ⟨k, u⟩ := c
    have w' := w
    simp only [cellsWf, Bool.and_eq_true, decide_eq_true_eq] at w
    simp only [putCell]
    split
    · next h =>
      refine cellsWf_consCell v hlo ha ?_
      simpa [cellsWf, w.1.1.2, w.2, Nat.succ_le_of_lt h] using w.1.2
    · split
      · next hk => exact cellsWf_consCell v hlo ha (hk ▸ w.2)
      · next hk =>
        have := ih (lo := k + 1) (by omega) w.2
        simpa [cellsWf, w.1.1.1, w.1.1.2, this] using w.1.2

theorem mem_consCell {cells : List (Nat × Value)} {a : Nat} {v : Value} {c : Nat × Value}
    (h : c ∈ consCell a v cells) : c = (a, v) ∨ c ∈ cells := by
  unfold consCell at h
  split at h
  · exact .inr h
  · exact List.mem_cons.mp h

/-- Every pair after a write is the one written or an old one. -/
theorem mem_putCell {cells : List (Nat × Value)} {a : Nat} {v : Value} {c : Nat × Value}
    (h : c ∈ putCell cells a v) : c = (a, v) ∨ c ∈ cells := by
  induction cells with
  | nil => exact mem_consCell h
  | cons d rest ih =>
    obtain ⟨k, u⟩ := d
    simp only [putCell] at h
    split at h
    · exact mem_consCell h
    · split at h
      · exact (mem_consCell h).imp_right (List.mem_cons_of_mem _)
      · rcases List.mem_cons.mp h with h | h
        · exact .inr (h ▸ List.mem_cons_self)
        · exact (ih h).imp_right (List.mem_cons_of_mem _)

@[simp] theorem Memory.put_size (m : Memory) (a : Nat) (v : Value) : (m.put a v).size = m.size := rfl

/-- A read after a write: the value written there, the old value everywhere else (R38). -/
theorem Memory.get_put {m : Memory} (w : m.wf = true) (a b : Nat) (v : Value) :
    (m.put a v).get b = if a = b then v else m.get b := cellAt_putCell w a b v

/-- A write to a cell that exists keeps the canonical form. -/
theorem Memory.wf_put {m : Memory} (w : m.wf = true) {a : Nat} (ha : a < m.size) (v : Value) :
    (m.put a v).wf = true := cellsWf_putCell v (Nat.zero_le a) ha w

@[simp] theorem Memory.fill_size (m : Memory) (a : Nat) (l : List Value) : (m.fill a l).size = m.size := by
  induction l generalizing m a with
  | nil => rfl
  | cons v rest ih => exact ih (m.put a v) (a + 1)

/-- Filling cells that exist keeps the canonical form. -/
theorem Memory.wf_fill {m : Memory} (w : m.wf = true) {a : Nat} {l : List Value} (ha : a + l.length ≤ m.size) :
    (m.fill a l).wf = true := by
  induction l generalizing m a with
  | nil => exact w
  | cons v rest ih =>
    simp only [List.length_cons] at ha
    exact ih (m.wf_put w (by omega) v) (by simp only [Memory.put_size]; omega)

/-- A cell after a fill: the value supplied for it, or what it held. -/
theorem Memory.get_fill {m : Memory} (w : m.wf = true) {a : Nat} {l : List Value} (ha : a + l.length ≤ m.size)
    (b : Nat) : (m.fill a l).get b = if a ≤ b then (l[b - a]?).getD (m.get b) else m.get b := by
  induction l generalizing m a with
  | nil => simp [Memory.fill]
  | cons v rest ih =>
    simp only [List.length_cons] at ha
    have h := ih (m.wf_put w (a := a) (by omega) v) (a := a + 1) (by simp only [Memory.put_size]; omega)
    simp only [Memory.fill, h, Memory.get_put w]
    rcases Nat.lt_trichotomy a b with hab | hab | hab
    · have e : b - a = (b - (a + 1)) + 1 := by omega
      simp [show a + 1 ≤ b by omega, show a ≤ b by omega, show a ≠ b by omega, e]
    · subst hab; simp
    · simp [show ¬ a + 1 ≤ b by omega, show ¬ a ≤ b by omega, show a ≠ b by omega]

/-- Every pair after a fill is an old one or holds a supplied value. -/
theorem Memory.mem_fill {m : Memory} {a : Nat} {l : List Value} {c : Nat × Value} (h : c ∈ (m.fill a l).cells) :
    c ∈ m.cells ∨ c.2 ∈ l := by
  induction l generalizing m a with
  | nil => exact .inl h
  | cons v rest ih =>
    rcases ih h with h | h
    · rcases mem_putCell h with h | h
      · exact .inr (by simp [h])
      · exact .inl h
    · exact .inr (List.mem_cons_of_mem _ h)

@[simp] theorem Memory.inBounds_iff (m : Memory) (a : Int) :
    m.inBounds a = true ↔ 0 ≤ a ∧ a < (m.size : Int) := by
  simp [Memory.inBounds]

end Sys2Proof.Machine
end

