-- ==== Sys2Proof/Laws/State.lean ====
section
/-! SUPPORT. One lemma per field per named update of the state. -/

namespace Sys2Proof.Machine

@[simp] theorem State.advance_xlen (s : State) : s.advance.xlen = s.xlen := rfl
@[simp] theorem State.advance_regs (s : State) : s.advance.regs = s.regs := rfl
@[simp] theorem State.advance_dm (s : State) : s.advance.dm = s.dm := rfl
@[simp] theorem State.advance_sf (s : State) : s.advance.sf = s.sf := rfl
@[simp] theorem State.advance_zf (s : State) : s.advance.zf = s.zf := rfl
@[simp] theorem State.advance_pc (s : State) : s.advance.pc = s.pc + 1 := rfl
@[simp] theorem State.advance_im (s : State) : s.advance.im = s.im := rfl
@[simp] theorem State.advance_status (s : State) : s.advance.status = s.status := rfl

@[simp] theorem State.branch_xlen (s : State) (b : Bool) (n : Nat) : (s.branch b n).xlen = s.xlen := rfl
@[simp] theorem State.branch_regs (s : State) (b : Bool) (n : Nat) : (s.branch b n).regs = s.regs := rfl
@[simp] theorem State.branch_dm (s : State) (b : Bool) (n : Nat) : (s.branch b n).dm = s.dm := rfl
@[simp] theorem State.branch_sf (s : State) (b : Bool) (n : Nat) : (s.branch b n).sf = s.sf := rfl
@[simp] theorem State.branch_zf (s : State) (b : Bool) (n : Nat) : (s.branch b n).zf = s.zf := rfl
@[simp] theorem State.branch_pc (s : State) (b : Bool) (n : Nat) :
    (s.branch b n).pc = if b then n else s.pc + 1 := rfl
@[simp] theorem State.branch_im (s : State) (b : Bool) (n : Nat) : (s.branch b n).im = s.im := rfl
@[simp] theorem State.branch_status (s : State) (b : Bool) (n : Nat) : (s.branch b n).status = s.status := rfl

@[simp] theorem State.halt_xlen (s : State) : s.halt.xlen = s.xlen := rfl
@[simp] theorem State.halt_regs (s : State) : s.halt.regs = s.regs := rfl
@[simp] theorem State.halt_dm (s : State) : s.halt.dm = s.dm := rfl
@[simp] theorem State.halt_sf (s : State) : s.halt.sf = s.sf := rfl
@[simp] theorem State.halt_zf (s : State) : s.halt.zf = s.zf := rfl
@[simp] theorem State.halt_pc (s : State) : s.halt.pc = s.pc := rfl
@[simp] theorem State.halt_im (s : State) : s.halt.im = s.im := rfl
@[simp] theorem State.halt_status (s : State) : s.halt.status = .halted := rfl

@[simp] theorem raiseFailure_xlen (s : State) (f : Failure) : (raiseFailure s f).xlen = s.xlen := rfl
@[simp] theorem raiseFailure_regs (s : State) (f : Failure) : (raiseFailure s f).regs = s.regs := rfl
@[simp] theorem raiseFailure_dm (s : State) (f : Failure) : (raiseFailure s f).dm = s.dm := rfl
@[simp] theorem raiseFailure_sf (s : State) (f : Failure) : (raiseFailure s f).sf = s.sf := rfl
@[simp] theorem raiseFailure_zf (s : State) (f : Failure) : (raiseFailure s f).zf = s.zf := rfl
@[simp] theorem raiseFailure_pc (s : State) (f : Failure) : (raiseFailure s f).pc = s.pc := rfl
@[simp] theorem raiseFailure_im (s : State) (f : Failure) : (raiseFailure s f).im = s.im := rfl
@[simp] theorem raiseFailure_status (s : State) (f : Failure) : (raiseFailure s f).status = .failed f.kind := rfl

@[simp] theorem State.startRun_xlen (s : State) : s.startRun.xlen = s.xlen := rfl
@[simp] theorem State.startRun_regs (s : State) : s.startRun.regs = s.regs := rfl
@[simp] theorem State.startRun_dm (s : State) : s.startRun.dm = s.dm := rfl
@[simp] theorem State.startRun_sf (s : State) : s.startRun.sf = s.sf := rfl
@[simp] theorem State.startRun_zf (s : State) : s.startRun.zf = s.zf := rfl
@[simp] theorem State.startRun_pc (s : State) : s.startRun.pc = s.pc := rfl
@[simp] theorem State.startRun_im (s : State) : s.startRun.im = s.im := rfl
@[simp] theorem State.startRun_status (s : State) : s.startRun.status = .running := rfl

@[simp] theorem setFlags_xlen (s : State) (v : Value) : (setFlags s v).xlen = s.xlen := rfl
@[simp] theorem setFlags_regs (s : State) (v : Value) : (setFlags s v).regs = s.regs := rfl
@[simp] theorem setFlags_dm (s : State) (v : Value) : (setFlags s v).dm = s.dm := rfl
@[simp] theorem setFlags_sf (s : State) (v : Value) : (setFlags s v).sf = signFlag v := rfl
@[simp] theorem setFlags_zf (s : State) (v : Value) : (setFlags s v).zf = zeroFlag v := rfl
@[simp] theorem setFlags_pc (s : State) (v : Value) : (setFlags s v).pc = s.pc := rfl
@[simp] theorem setFlags_im (s : State) (v : Value) : (setFlags s v).im = s.im := rfl
@[simp] theorem setFlags_status (s : State) (v : Value) : (setFlags s v).status = s.status := rfl

@[simp] theorem initialState_pc (p : Params) : (initialState p).pc = 0 := rfl
@[simp] theorem initialState_sf (p : Params) : (initialState p).sf = p.sfInit := rfl
@[simp] theorem initialState_zf (p : Params) : (initialState p).zf = p.zfInit := rfl
@[simp] theorem initialState_xlen (p : Params) : (initialState p).xlen = p.xlen := rfl
@[simp] theorem initialState_status (p : Params) : (initialState p).status = .running := rfl

end Sys2Proof.Machine
end

