-- ==== Sys2Proof/Laws/Ops.lean ====
section
/-! SUPPORT. For each shared operation, everything it can do: when it answers and what, and when it raises. -/

namespace Sys2Proof.Machine

theorem readReg_ok_iff {s : State} {i : Nat} {v : Value} : readReg s i = .ok v ↔ s.regs[i]? = some v := by
  unfold readReg
  split
  · next h => simp [h]
  · next h => simp [h]

theorem readReg_error_iff {s : State} {i : Nat} {f : Failure} :
    readReg s i = .error f ↔ s.nregs ≤ i ∧ f = .bounds .reg i := by
  unfold readReg State.nregs
  split
  · next v h =>
    obtain ⟨hi, -⟩ := List.getElem?_eq_some_iff.mp h
    simp; omega
  · next h =>
    have := List.getElem?_eq_none_iff.mp h
    simp [this, eq_comm]

theorem writeReg_ok_iff {s t : State} {i : Nat} {v : Value} :
    writeReg s i v = .ok t ↔ i < s.nregs ∧ t = { s with regs := s.regs.set i v } := by
  unfold writeReg
  split <;> simp_all [eq_comm]

theorem writeReg_error_iff {s : State} {i : Nat} {v : Value} {f : Failure} :
    writeReg s i v = .error f ↔ s.nregs ≤ i ∧ f = .bounds .reg i := by
  unfold writeReg
  split <;> simp_all [eq_comm]

theorem memRead_ok_iff {s : State} {a : Int} {v : Value} :
    memRead s a = .ok v ↔ (0 ≤ a ∧ a < (s.dm.size : Int)) ∧ v = s.dm.get a.toNat := by
  unfold memRead
  split
  · next h => simp [(s.dm.inBounds_iff a).mp h, eq_comm]
  · next h => rw [Memory.inBounds_iff] at h; simp [h]

theorem memRead_error_iff {s : State} {a : Int} {f : Failure} :
    memRead s a = .error f ↔ (a < 0 ∨ (s.dm.size : Int) ≤ a) ∧ f = .bounds .dmem a := by
  unfold memRead
  split
  · next h => rw [Memory.inBounds_iff] at h; simp; omega
  · next h => rw [Memory.inBounds_iff] at h; simp [eq_comm]; omega

theorem memWrite_ok_iff {s t : State} {a : Int} {v : Value} :
    memWrite s a v = .ok t ↔ (0 ≤ a ∧ a < (s.dm.size : Int)) ∧ t = { s with dm := s.dm.put a.toNat v } := by
  unfold memWrite
  split
  · next h => simp [(s.dm.inBounds_iff a).mp h, eq_comm]
  · next h => rw [Memory.inBounds_iff] at h; simp [h]

theorem memWrite_error_iff {s : State} {a : Int} {v : Value} {f : Failure} :
    memWrite s a v = .error f ↔ (a < 0 ∨ (s.dm.size : Int) ≤ a) ∧ f = .bounds .dmem a := by
  unfold memWrite
  split
  · next h => rw [Memory.inBounds_iff] at h; simp; omega
  · next h => rw [Memory.inBounds_iff] at h; simp [eq_comm]; omega

theorem arithStore_ok_iff {s t : State} {a : Nat} {res : Value} :
    arithStore s a res = .ok t ↔ inRange s.xlen res = true ∧ a < s.nregs ∧
      t = { s with regs := s.regs.set a res, zf := zeroFlag res, sf := signFlag res } := by
  unfold arithStore
  split
  · next h =>
    cases hw : writeReg s a res with
    | ok u =>
      obtain ⟨h1, rfl⟩ := writeReg_ok_iff.mp hw
      simp [h, h1, bind, Except.bind, pure, Except.pure, setFlags, eq_comm]
    | error f =>
      have := (writeReg_error_iff.mp hw).1
      simp [h, bind, Except.bind]; omega
  · next h => simp [h]

theorem arithStore_error_iff {s : State} {a : Nat} {res : Value} {f : Failure} :
    arithStore s a res = .error f ↔
      (inRange s.xlen res = false ∧ f = .valueRange res) ∨
      (inRange s.xlen res = true ∧ s.nregs ≤ a ∧ f = .bounds .reg a) := by
  unfold arithStore
  split
  · next h =>
    cases hw : writeReg s a res with
    | ok u =>
      have := (writeReg_ok_iff.mp hw).1
      simp [h, bind, Except.bind, pure, Except.pure]; omega
    | error g =>
      obtain ⟨h1, rfl⟩ := writeReg_error_iff.mp hw
      simp [h, h1, bind, Except.bind, eq_comm]
  · next h => simp [h, eq_comm]

@[simp] theorem finish_ok (s t : State) : finish s (.ok t) = .next t := rfl

@[simp] theorem finish_error (s : State) (f : Failure) : finish s (.error f) = .next (raiseFailure s f) := rfl

/-- What the end of an instruction can answer: the state it computed, or its failure taken in the state it began in. -/
theorem finish_next_iff {s t : State} {r : Except Failure State} :
    finish s r = .next t ↔ r = .ok t ∨ ∃ f, r = .error f ∧ t = raiseFailure s f := by
  cases r <;> simp [finish, eq_comm]

/-- A sequence of two operations completes when both do. -/
theorem bind_ok_iff {α β : Type} {x : Except Failure α} {g : α → Except Failure β} {b : β} :
    (x >>= g) = .ok b ↔ ∃ a, x = .ok a ∧ g a = .ok b := by
  cases x <;> simp [bind, Except.bind]

/-- A sequence of two operations raises what its first raises, or else its second. -/
theorem bind_error_iff {α β : Type} {x : Except Failure α} {g : α → Except Failure β} {f : Failure} :
    (x >>= g) = .error f ↔ x = .error f ∨ ∃ a, x = .ok a ∧ g a = .error f := by
  cases x <;> simp [bind, Except.bind]

theorem fetch_none_iff {s : State} : fetch s = none ↔ s.progLen ≤ s.pc := by
  simp [fetch, State.progLen]

theorem fetch_some_lt {s : State} {w : Word} (h : fetch s = some w) : s.pc < s.progLen :=
  (List.getElem?_eq_some_iff.mp h).1

/-- The fetch of a state prepared by `withFetchWord` is the word placed, and nothing else the cycle reads has changed. -/
theorem fetch_withFetchWord (s : State) (nbits w : Nat) :
    fetch (s.withFetchWord nbits w) = some (BitVec.ofNat 32 (w % 2 ^ nbits)) := by
  have h : (s.im.take s.pc ++ List.replicate (s.pc - s.im.length) (0 : Word)).length = s.pc := by
    simp; omega
  show (s.im.take s.pc ++ List.replicate (s.pc - s.im.length) (0 : Word) ++
    BitVec.ofNat 32 (w % 2 ^ nbits) :: s.im.drop (s.pc + 1))[s.pc]? = _
  rw [List.getElem?_append_right (by omega), h]
  simp

end Sys2Proof.Machine
end

