-- ==== Sys2Proof/Laws/Encoder.lean ====
section
/-! SUPPORT. The encoder block: when each of its operations answers and what. -/

namespace Sys2Proof.Machine

theorem checkRange_ok_iff {o : Operand} {n : Nat} :
    checkRange o = .ok n ↔ 0 ≤ o.value ∧ o.value ≤ (fieldMax o.kind : Int) ∧ n = o.value.toNat := by
  unfold checkRange; split <;> simp [eq_comm] <;> omega

theorem checkRange_error_iff {o : Operand} {f : Failure} :
    checkRange o = .error f ↔ (o.value < 0 ∨ (fieldMax o.kind : Int) < o.value) ∧ f = .range o.value := by
  unfold checkRange; split <;> simp [eq_comm] <;> omega

/-- The width test never refuses fields that fit (R70). -/
theorem packWord_ok {opc lit dst a b : Nat} (ho : opc ≤ 15) (hl : lit ≤ 255) (hd : dst ≤ 15) (ha : a ≤ 15)
    (hb : b ≤ 15) : packWord opc lit dst a b = .ok (BitVec.ofNat 32 (pack opc lit dst a b)) := by
  have := pack_le ho hl hd ha hb
  unfold packWord
  simp only
  rw [if_neg (by omega)]

theorem jumpOpcode_le (k : JumpKind) : jumpOpcode k ≤ 15 := by cases k <;> decide

/-- The twelve pairs the encoder serves (R63 to R67). -/
theorem selectOpcode_cases {mn : Mnemonic} {k1 k2 : OperandKind} {opc : Nat} (h : selectOpcode mn k1 k2 = .ok opc) :
    (mn, k1, k2, opc) ∈ [(Mnemonic.mov, OperandKind.reg, OperandKind.reg, 0), (.mov, .reg, .lit, 1),
      (.mov, .reg, .dat, 2), (.mov, .dat, .reg, 3), (.mov, .reg, .ind, 14), (.xchg, .reg, .reg, 4),
      (.add, .reg, .reg, 5), (.add, .reg, .lit, 6), (.sub, .reg, .reg, 7), (.sub, .reg, .lit, 8),
      (.cmp, .reg, .reg, 9), (.cmp, .reg, .lit, 10)] := by
  cases mn <;> cases k1 <;> cases k2 <;> simp_all [selectOpcode]

theorem selectOpcode_bounds {mn : Mnemonic} {k1 k2 : OperandKind} {opc : Nat} (h : selectOpcode mn k1 k2 = .ok opc) :
    opc ≤ 15 ∧ fieldMax k1 = 15 ∧ fieldMax k2 = if k2 = .lit then 255 else 15 := by
  cases mn <;> cases k1 <;> cases k2 <;> simp_all [selectOpcode, fieldMax] <;> omega

theorem selectOpcode_error {mn : Mnemonic} {k1 k2 : OperandKind} {f : Failure}
    (h : selectOpcode mn k1 k2 = .error f) : f = .usage := by
  cases mn <;> cases k1 <;> cases k2 <;> simp_all [selectOpcode]

/-- What the encoder accepts and the word it gives (R61 to R67). -/
theorem encodeOperands_ok_iff {mn : Mnemonic} {o1 o2 : Operand} {w : Word} : encodeOperands mn o1 o2 = .ok w ↔
    ∃ opc a v, selectOpcode mn o1.kind o2.kind = .ok opc ∧ checkRange o1 = .ok a ∧ checkRange o2 = .ok v ∧
      w = BitVec.ofNat 32 (if o2.kind = .lit then pack opc v a a 0 else pack opc 0 a a v) := by
  simp only [encodeOperands, bind_ok_iff]
  have key : ∀ opc a v, selectOpcode mn o1.kind o2.kind = .ok opc → checkRange o1 = .ok a → checkRange o2 = .ok v →
      (if o2.kind = .lit then packWord opc v a a 0 else packWord opc 0 a a v) =
        .ok (BitVec.ofNat 32 (if o2.kind = .lit then pack opc v a a 0 else pack opc 0 a a v)) := by
    intro opc a v h1 h2 h3
    obtain ⟨ho, hk1, hk2⟩ := selectOpcode_bounds h1
    rw [checkRange_ok_iff] at h2 h3
    split
    · next hl =>
      rw [if_pos hl] at hk2
      exact packWord_ok ho (by omega) (by omega) (by omega) (by omega)
    · next hl =>
      rw [if_neg hl] at hk2
      exact packWord_ok ho (by omega) (by omega) (by omega) (by omega)
  constructor
  · rintro ⟨opc, h1, a, h2, v, h3, h4⟩
    rw [key opc a v h1 h2 h3] at h4
    exact ⟨opc, a, v, h1, h2, h3, by cases h4; rfl⟩
  · rintro ⟨opc, a, v, h1, h2, h3, rfl⟩
    exact ⟨opc, h1, a, h2, v, h3, key opc a v h1 h2 h3⟩

/-- What the jump encoder accepts and the word it gives (R68). -/
theorem encodeJump_ok_iff {k : JumpKind} {t : Int} {w : Word} : encodeJump k t = .ok w ↔
    0 ≤ t ∧ t ≤ 255 ∧ w = BitVec.ofNat 32 (pack (jumpOpcode k) t.toNat 0 0 0) := by
  simp only [encodeJump, bind_ok_iff, checkRange_ok_iff, fieldMax]
  constructor
  · rintro ⟨l, ⟨h1, h2, rfl⟩, h⟩
    rw [packWord_ok (jumpOpcode_le k) (by omega) (by omega) (by omega) (by omega)] at h
    exact ⟨h1, by omega, by cases h; rfl⟩
  · rintro ⟨h1, h2, rfl⟩
    exact ⟨_, ⟨h1, by omega, rfl⟩, packWord_ok (jumpOpcode_le k) (by omega) (by omega) (by omega) (by omega)⟩

end Sys2Proof.Machine
end

