-- ==== Sys2Proof/Laws/PerInstr.lean ====
section
/-! SUPPORT. The per-instruction family `EncodeFields`: the word of a well-formed instruction has the instruction's own
fields (spec/30_encoding.md R61, R71), one lemma per constructor. -/

namespace Sys2Proof.Laws.EncodeFields

/-- The five fields read back from the instruction's word are its own. -/
def Statement (i : Instr) : Prop := WellFormed i = true → decodeFields (encode i) = fieldsOf i

theorem movRR (a b : Nat) : Statement (.movRR a b) := fun h => by
  simp only [WellFormed, isIdx4, Bool.and_eq_true, decide_eq_true_eq] at h
  exact decodeFields_pack (Nat.le_of_ble_eq_true rfl) (Nat.le_of_ble_eq_true rfl) h.1 h.1 h.2

theorem movRI (a l : Nat) : Statement (.movRI a l) := fun h => by
  simp only [WellFormed, isIdx4, isLit8, Bool.and_eq_true, decide_eq_true_eq] at h
  exact decodeFields_pack (Nat.le_of_ble_eq_true rfl) h.2 h.1 h.1 (Nat.le_of_ble_eq_true rfl)

theorem movRD (a b : Nat) : Statement (.movRD a b) := fun h => by
  simp only [WellFormed, isIdx4, Bool.and_eq_true, decide_eq_true_eq] at h
  exact decodeFields_pack (Nat.le_of_ble_eq_true rfl) (Nat.le_of_ble_eq_true rfl) h.1 h.1 h.2

theorem movDR (a b : Nat) : Statement (.movDR a b) := fun h => by
  simp only [WellFormed, isIdx4, Bool.and_eq_true, decide_eq_true_eq] at h
  exact decodeFields_pack (Nat.le_of_ble_eq_true rfl) (Nat.le_of_ble_eq_true rfl) h.1 h.1 h.2

theorem xchg (a b : Nat) : Statement (.xchg a b) := fun h => by
  simp only [WellFormed, isIdx4, Bool.and_eq_true, decide_eq_true_eq] at h
  exact decodeFields_pack (Nat.le_of_ble_eq_true rfl) (Nat.le_of_ble_eq_true rfl) h.1 h.1 h.2

theorem addRR (a b : Nat) : Statement (.addRR a b) := fun h => by
  simp only [WellFormed, isIdx4, Bool.and_eq_true, decide_eq_true_eq] at h
  exact decodeFields_pack (Nat.le_of_ble_eq_true rfl) (Nat.le_of_ble_eq_true rfl) h.1 h.1 h.2

theorem addRI (a l : Nat) : Statement (.addRI a l) := fun h => by
  simp only [WellFormed, isIdx4, isLit8, Bool.and_eq_true, decide_eq_true_eq] at h
  exact decodeFields_pack (Nat.le_of_ble_eq_true rfl) h.2 h.1 h.1 (Nat.le_of_ble_eq_true rfl)

theorem subRR (a b : Nat) : Statement (.subRR a b) := fun h => by
  simp only [WellFormed, isIdx4, Bool.and_eq_true, decide_eq_true_eq] at h
  exact decodeFields_pack (Nat.le_of_ble_eq_true rfl) (Nat.le_of_ble_eq_true rfl) h.1 h.1 h.2

theorem subRI (a l : Nat) : Statement (.subRI a l) := fun h => by
  simp only [WellFormed, isIdx4, isLit8, Bool.and_eq_true, decide_eq_true_eq] at h
  exact decodeFields_pack (Nat.le_of_ble_eq_true rfl) h.2 h.1 h.1 (Nat.le_of_ble_eq_true rfl)

theorem cmpRR (a b : Nat) : Statement (.cmpRR a b) := fun h => by
  simp only [WellFormed, isIdx4, Bool.and_eq_true, decide_eq_true_eq] at h
  exact decodeFields_pack (Nat.le_of_ble_eq_true rfl) (Nat.le_of_ble_eq_true rfl) h.1 h.1 h.2

theorem cmpRI (a l : Nat) : Statement (.cmpRI a l) := fun h => by
  simp only [WellFormed, isIdx4, isLit8, Bool.and_eq_true, decide_eq_true_eq] at h
  exact decodeFields_pack (Nat.le_of_ble_eq_true rfl) h.2 h.1 h.1 (Nat.le_of_ble_eq_true rfl)

theorem js (l : Nat) : Statement (.js l) := fun h => by
  simp only [WellFormed, isLit8, decide_eq_true_eq] at h
  exact decodeFields_pack (Nat.le_of_ble_eq_true rfl) h (Nat.le_of_ble_eq_true rfl) (Nat.le_of_ble_eq_true rfl) (Nat.le_of_ble_eq_true rfl)

theorem jns (l : Nat) : Statement (.jns l) := fun h => by
  simp only [WellFormed, isLit8, decide_eq_true_eq] at h
  exact decodeFields_pack (Nat.le_of_ble_eq_true rfl) h (Nat.le_of_ble_eq_true rfl) (Nat.le_of_ble_eq_true rfl) (Nat.le_of_ble_eq_true rfl)

theorem jne (l : Nat) : Statement (.jne l) := fun h => by
  simp only [WellFormed, isLit8, decide_eq_true_eq] at h
  exact decodeFields_pack (Nat.le_of_ble_eq_true rfl) h (Nat.le_of_ble_eq_true rfl) (Nat.le_of_ble_eq_true rfl) (Nat.le_of_ble_eq_true rfl)

theorem movRX (a b : Nat) : Statement (.movRX a b) := fun h => by
  simp only [WellFormed, isIdx4, Bool.and_eq_true, decide_eq_true_eq] at h
  exact decodeFields_pack (Nat.le_of_ble_eq_true rfl) (Nat.le_of_ble_eq_true rfl) h.1 h.1 h.2

theorem je (l : Nat) : Statement (.je l) := fun h => by
  simp only [WellFormed, isLit8, decide_eq_true_eq] at h
  exact decodeFields_pack (Nat.le_of_ble_eq_true rfl) h (Nat.le_of_ble_eq_true rfl) (Nat.le_of_ble_eq_true rfl) (Nat.le_of_ble_eq_true rfl)

end Sys2Proof.Laws.EncodeFields
end

