-- ==== Sys2Proof/Tests/Slice0.lean ====
section
/-! SUPPORT. Tests on the vectors of spec/95_test_vectors.md, each named beside its test, and for every obligation with
hypotheses a witness that they can be met. -/

namespace Sys2Proof.Tests

open Sys2Proof Sys2Proof.Machine

/-! Helpers. -/

/-- A machine whose store holds one word, at index 0. -/
def machine (nregs size : Nat) (x : Xlen) (w : Word) : State where
  xlen := x
  regs := List.replicate nregs 0
  dm := { size := size, cells := [] }
  sf := true
  zf := true
  pc := 0
  im := [w]
  status := .running

/-- The default machine of 95_test_vectors.md with one word. -/
def plain (w : Word) : State := machine 16 16 (.bits 32) w

/-- The state with the given registers set. -/
def holding (values : List (Nat × Int)) (s : State) : State :=
  { s with regs := values.foldl (fun r p => r.set p.1 p.2) s.regs }

/-- The state after one cycle, if it has one. -/
def after (s : State) : Option State :=
  match step s with
  | .next t => some t
  | _ => none

/-- Registers 0 to 4, ZF, SF, pc and status after one cycle. -/
def seen (s : State) : Option (List Int × Bool × Bool × Nat × Status) :=
  (after s).map fun t => (t.regs.take 5, t.zf, t.sf, t.pc, t.status)

/-- The data cells after one cycle. -/
def seenCells (s : State) : Option (List (Nat × Int)) := (after s).map fun t => t.dm.cells

/-- A line. -/
def line (t : String) : Text := t.toList

/-! WellFormed refuses an index above 15 (R5) and a literal above 255 (R6), in every field of every form. -/

theorem test_wf_accepts_the_largest_fields :
    (∀ i ∈ [Instr.movRR 15 15, .movRD 15 15, .movDR 15 15, .xchg 15 15, .addRR 15 15, .subRR 15 15, .cmpRR 15 15,
      .movRX 15 15, .movRI 15 255, .addRI 15 255, .subRI 15 255, .cmpRI 15 255, .js 255, .jns 255, .jne 255, .je 255],
      WellFormed i = true) := by decide

theorem test_wf_refuses_first_index_16 :
    (∀ i ∈ [Instr.movRR 16 0, .movRD 16 0, .movDR 16 0, .xchg 16 0, .addRR 16 0, .subRR 16 0, .cmpRR 16 0,
      .movRX 16 0, .movRI 16 0, .addRI 16 0, .subRI 16 0, .cmpRI 16 0], WellFormed i = false) := by decide

theorem test_wf_refuses_second_index_16 :
    (∀ i ∈ [Instr.movRR 0 16, .movRD 0 16, .movDR 0 16, .xchg 0 16, .addRR 0 16, .subRR 0 16, .cmpRR 0 16,
      .movRX 0 16], WellFormed i = false) := by decide

theorem test_wf_refuses_literal_256 :
    (∀ i ∈ [Instr.movRI 0 256, .addRI 0 256, .subRI 0 256, .cmpRI 0 256, .js 256, .jns 256, .jne 256, .je 256],
      WellFormed i = false) := by decide

/-! Decoding, every constructor: the words of V-N0 to V-N15 written from R51's layout. -/

theorem test_decode_movRR : decode 0x00000112 = .ok (.movRR 1 2) := by decide
theorem test_decode_movRI : decode 0x100C8330 = .ok (.movRI 3 200) := by decide
theorem test_decode_movRD : decode 0x20000225 = .ok (.movRD 2 5) := by decide
theorem test_decode_movDR : decode 0x30000552 = .ok (.movDR 5 2) := by decide
theorem test_decode_xchg : decode 0x40000112 = .ok (.xchg 1 2) := by decide
theorem test_decode_addRR : decode 0x50000112 = .ok (.addRR 1 2) := by decide
theorem test_decode_addRI : decode 0x6000A110 = .ok (.addRI 1 10) := by decide
theorem test_decode_subRR : decode 0x70000112 = .ok (.subRR 1 2) := by decide
theorem test_decode_subRI : decode 0x80001110 = .ok (.subRI 1 1) := by decide
theorem test_decode_cmpRR : decode 0x90000001 = .ok (.cmpRR 0 1) := by decide
theorem test_decode_cmpRI : decode 0xA0003110 = .ok (.cmpRI 1 3) := by decide
theorem test_decode_js : decode 0xB0005000 = .ok (.js 5) := by decide
theorem test_decode_jns : decode 0xC0002000 = .ok (.jns 2) := by decide
theorem test_decode_jne : decode 0xD0002000 = .ok (.jne 2) := by decide
theorem test_decode_movRX : decode 0xE0000441 = .ok (.movRX 4 1) := by decide
theorem test_decode_je : decode 0xF0007000 = .ok (.je 7) := by decide

/-- One word in binary: opcode 0001, bits 27:20 all set, literal 1000 0001, dest 0110, op1 0011, op2 1010. -/
theorem test_decode_fields_bit_by_bit :
    decodeFields 0b0001_11111111_10000001_0110_0011_1010 = { opcode := 1, literal := 129, dest := 6, op1 := 3, op2 := 10 } :=
  by decide

/-- V-D9 to V-D12: words that are not canonical execute as the operation shown. -/
theorem test_decode_noncanonical :
    decode 0xFFFFFFFF = .ok (.je 255) ∧ decode 0x1ABFF37C = .ok (.movRI 7 255) ∧
    decode 0x5FF00A12 = .ok (.addRR 1 2) ∧ decode 0x8FFFF11F = .ok (.subRI 1 255) ∧
    [0xFFFFFFFF, 0x1ABFF37C, 0x5FF00A12, 0x8FFFF11F].all (fun w => !canonical w) = true := by decide

/-- V-D1 to V-D8: canonical words. -/
theorem test_canonical_words :
    [0x10005000, 0x90000001, 0xB0005000, 0xE0000441, 0x30000552, 0x6000A110, 0xF00FF000, 0x00000000].all canonical
      = true := by decide

theorem test_decodeTableWord :
    decodeTableWord 32 0x100C8330 = some (.movRI 3 200) ∧ decodeTableWord 32 (2 ^ 32) = none := by decide

/-- V-N0 to V-N15: `encode` gives the table's words. -/
theorem test_encode_words :
    [Instr.movRR 1 2, .movRI 3 200, .movRD 2 5, .movDR 5 2, .xchg 1 2, .addRR 1 2, .addRI 1 10, .subRR 1 2, .subRI 1 1,
      .cmpRR 0 1, .cmpRI 1 3, .js 5, .jns 2, .jne 2, .movRX 4 1, .je 7].map encode =
    [0x00000112, 0x100C8330, 0x20000225, 0x30000552, 0x40000112, 0x50000112, 0x6000A110, 0x70000112, 0x80001110,
      0x90000001, 0xA0003110, 0xB0005000, 0xC0002000, 0xD0002000, 0xE0000441, 0xF0007000] := by decide

/-! The encoder: V-M3, V-M4, V-M6, V-M8 and the refusals V-S15 to V-S17, V-S7, V-S11. -/

theorem test_encoder_extremes :
    encodeOperands .mov ⟨.reg, 15⟩ ⟨.reg, 15⟩ = .ok 0x00000FFF ∧
    encodeOperands .mov ⟨.dat, 15⟩ ⟨.reg, 0⟩ = .ok 0x30000FF0 ∧
    encodeOperands .add ⟨.reg, 15⟩ ⟨.lit, 255⟩ = .ok 0x600FFFF0 ∧ encodeJump .je 255 = .ok 0xF00FF000 := by decide

theorem test_encoder_refusals :
    encodeJump .js 256 = .error (.range 256) ∧
    encodeOperands .mov ⟨.dat, 16⟩ ⟨.lit, 5⟩ = .error .usage ∧
    encodeOperands .mov ⟨.reg, 16⟩ ⟨.lit, 256⟩ = .error (.range 16) ∧
    encodeOperands .mov ⟨.dat, 3⟩ ⟨.lit, 5⟩ = .error .usage ∧
    encodeOperands .xchg ⟨.reg, 1⟩ ⟨.lit, 5⟩ = .error .usage := by decide

/-! The assembler. -/

/-- E3, both programs. -/
theorem test_assemble_labels :
    assemble [line "js over", line "mov r0, 2", line "over: mov r0, 1"] = .ok [0xB0002000, 0x10002000, 0x10001000] ∧
    assemble [line "mov r0, 2", line "back: sub r0, 1", line "jne back"] = .ok [0x10002000, 0x80001000, 0xD0001000] :=
  by decide

/-- E4 and P7. -/
theorem test_assemble_set :
    assemble [line "set [3,1,2,3]"] =
      .ok [0x10001000, 0x30000000, 0x10002000, 0x30000110, 0x10003000, 0x30000220, 0x10000000] ∧
    assemble [line "set [0]"] = .ok [0x10000000] := by decide

/-- The accepted counterparts of P8: runs of separators, and a label that looks like a number. -/
theorem test_assemble_separators :
    assemble [line "mov r0,5", line "mov   r1 ,  r0", line "x:mov r2,[r1]"] = .ok [0x10005000, 0x00000110, 0xE0000221] ∧
    assemble [line "5: mov r0, 1", line "je 5"] = .ok [0x10001000, 0xF0000000] := by decide

/-- V-S1 to V-S6: RangeFailure. -/
theorem test_assemble_range :
    assemble [line "mov r0, 256"] = .error (.range 256) ∧ assemble [line "mov r0, -1"] = .error (.range (-1)) ∧
    assemble [line "mov d16, r0"] = .error (.range 16) ∧ assemble [line "mov r1, [r16]"] = .error (.range 16) ∧
    assemble [line "mov r-1, 0"] = .error (.range (-1)) := by decide

/-- V-S8 to V-S10, V-S12, V-S14: UsageFailure. -/
theorem test_assemble_usage :
    assemble [line "mov d1, d2"] = .error .usage ∧ assemble [line "mov [r1], r2"] = .error .usage ∧
    assemble [line "mov 5, r1"] = .error .usage ∧ assemble [line "add r1, d2"] = .error .usage ∧
    assemble [line "cmp 5, r1"] = .error .usage := by decide

/-- V-S19 to V-S26: SyntaxFailure. -/
theorem test_assemble_syntax :
    [line "foo r1, r2", line "mov r1", line "mov r1, r2, r3", line "mov r1, q7", line "mov r1, [ r2 ]", line "mov r0, 0x10",
      line "MOV r0, 1", line "mov r0, 1 ; c", line "set [2,1]", line "", line "lbl:", line "js a b"].all
      (fun t => decide (assemble [t] = .error .malformed)) = true := by decide

/-- V-S18, V-S29, V-S31. -/
theorem test_assemble_other_failures :
    assemble [line "je nowhere"] = .error (.resolution (line "nowhere")) ∧
    assemble [line "set [1,300]"] = .error (.range 300) ∧
    assemble [line "a: mov r0, 1", line "a: mov r0, 2"] = .error .malformed := by decide

/-! One cycle of each instruction. -/

/-- V-X1. -/
theorem test_movRR_noncanonical :
    seen (holding [(2, -7)] (plain 0x0ABCD912)) = some ([0, -7, -7, 0, 0], true, true, 1, .running) := by decide

/-- V-X18. -/
theorem test_movRR_self :
    seen (holding [(0, 4)] (plain 0x00000000)) = some ([4, 0, 0, 0, 0], true, true, 1, .running) := by decide

/-- V-X3. -/
theorem test_movRI_is_unsigned :
    seen (plain 0x1FFFF73F) = some ([0, 0, 0, 255, 0], true, true, 1, .running) := by decide

/-- V-X6. -/
theorem test_movRI_bounds :
    seen (machine 4 16 (.bits 32) 0x10001550) = some ([0, 0, 0, 0], true, true, 0, .failed .boundsFailure) := by decide

/-- V-X5: op2 is a data address. -/
theorem test_movRD_address_is_no_register :
    seen { machine 4 16 (.bits 32) 0x20000119 with dm := ⟨16, [(9, 77)]⟩ } =
      some ([0, 77, 0, 0], true, true, 1, .running) := by decide

/-- V-X7. -/
theorem test_movDR :
    seenCells (holding [(2, 99)] (plain 0x30000552)) = some [(5, 99)] := by decide

/-- V-X8. -/
theorem test_movDR_bounds :
    seen (holding [(1, 5)] (machine 16 8 (.bits 32) 0x30000CC1)) =
      some ([0, 5, 0, 0, 0], true, true, 0, .failed .boundsFailure) := by decide

/-- V-X14 in small: an indirect address may exceed 15. -/
theorem test_movRX_high_cell :
    seen (holding [(1, 99)] { machine 16 100 (.bits 32) 0xE0000221 with dm := ⟨100, [(99, 199)]⟩ }) =
      some ([0, 99, 199, 0, 0], true, true, 1, .running) := by decide

/-- V-X11: a negative address does not wrap. -/
theorem test_movRX_negative :
    seen (holding [(1, -1)] (plain 0xE0000441)) = some ([0, -1, 0, 0, 0], true, true, 0, .failed .boundsFailure) := by
  decide

/-- V-X15. -/
theorem test_xchg :
    seen (holding [(1, 5), (2, -2)] (plain 0x40000112)) = some ([0, -2, 5, 0, 0], true, true, 1, .running) := by decide

/-- V-X17. -/
theorem test_xchg_bounds :
    seen (holding [(1, 5)] (machine 4 16 (.bits 32) 0x40000117)) =
      some ([0, 5, 0, 0], true, true, 0, .failed .boundsFailure) := by decide

/-- V-A1. -/
theorem test_addRR :
    seen (holding [(1, 5), (2, -8)] (plain 0x50000112)) = some ([0, -3, -8, 0, 0], false, true, 1, .running) := by decide

/-- V-A4 (here with both flags set before): no wrap, nothing written. -/
theorem test_addRR_out_of_range :
    seen (holding [(1, 2147483647), (2, 1)] (plain 0x50000112)) =
      some ([0, 2147483647, 1, 0, 0], true, true, 0, .failed .valueRangeFailure) := by decide

/-- V-A8. -/
theorem test_addRI_is_unsigned :
    seen (plain 0x600FF110) = some ([0, 255, 0, 0, 0], false, false, 1, .running) := by decide

/-- V-A9. -/
theorem test_addRI_zero_sets_flags :
    seen (holding [(1, -4)] (plain 0x60000110)) = some ([0, -4, 0, 0, 0], false, true, 1, .running) := by decide

/-- V-A11: op1 minus op2. -/
theorem test_subRR :
    seen (holding [(1, 3), (2, 5)] (plain 0x70000112)) = some ([0, -2, 5, 0, 0], false, true, 1, .running) := by decide

/-- V-A13. -/
theorem test_subRR_out_of_range :
    seen (holding [(2, -2147483648)] (plain 0x70000112)) =
      some ([0, 0, -2147483648, 0, 0], true, true, 0, .failed .valueRangeFailure) := by decide

/-- V-A14. -/
theorem test_subRI :
    seen (holding [(1, 1)] (plain 0x80001110)) = some ([0, 0, 0, 0, 0], true, false, 1, .running) := by decide

/-- V-A16. -/
theorem test_subRI_out_of_range :
    seen (holding [(1, -2147483648)] (plain 0x80001110)) =
      some ([0, -2147483648, 0, 0, 0], true, true, 0, .failed .valueRangeFailure) := by decide

/-- V-A20: the exact difference, no failure. -/
theorem test_cmpRR_beyond_the_width :
    seen (holding [(1, 2147483647), (2, -1)] (plain 0x90000112)) =
      some ([0, 2147483647, -1, 0, 0], false, false, 1, .running) := by decide

/-- V-A18. -/
theorem test_cmpRR_less :
    seen (holding [(0, 3), (1, 5)] (plain 0x90000001)) = some ([3, 5, 0, 0, 0], false, true, 1, .running) := by decide

/-- V-A22. -/
theorem test_cmpRI :
    seen (holding [(1, 2)] (plain 0xA0003110)) = some ([0, 2, 0, 0, 0], false, true, 1, .running) := by decide

/-- V-A26. -/
theorem test_cmpRI_bounds :
    seen (machine 4 16 (.bits 32) 0xA0001660) = some ([0, 0, 0, 0], true, true, 0, .failed .boundsFailure) := by decide

/-- V-A6, V-A28 and V-A27: an unbounded width, and the largest result of 9 bits and the one above it. -/
theorem test_widths :
    (seen (holding [(1, 2147483647), (2, 1)] (machine 16 16 .unbounded 0x50000112))).map (·.1) =
      some [0, 2147483648, 1, 0, 0] ∧
    (seen (holding [(1, 200), (2, 55)] (machine 16 16 (.bits 9) 0x50000112))).map (·.1) = some [0, 255, 55, 0, 0] ∧
    (seen (holding [(1, 200), (2, 100)] (machine 16 16 (.bits 9) 0x50000112))).map (·.2.2.2.2) =
      some (.failed .valueRangeFailure) := by decide

/-- V-A25: the bounds test comes before the arithmetic. -/
theorem test_bounds_before_range :
    (seen (holding [(1, 2147483647)] (machine 4 16 (.bits 32) 0x50000119))).map (·.2.2.2.2) =
      some (.failed .boundsFailure) := by decide

/-- The pc after a branch word at index 3, for (SF, ZF) = (0, 0), (0, 1), (1, 0), (1, 1), as in table 6.1. -/
def branchTable (w : Word) : List (Option Nat) :=
  [(false, false), (false, true), (true, false), (true, true)].map fun f =>
    (after { plain 0 with im := [0, 0, 0, w], pc := 3, sf := f.1, zf := f.2 }).map (·.pc)

theorem test_js : branchTable 0xB0005000 = [some 4, some 4, some 5, some 5] := by decide
theorem test_jns : branchTable 0xC0002000 = [some 2, some 2, some 4, some 4] := by decide
theorem test_jne : branchTable 0xD0002000 = [some 2, some 4, some 2, some 4] := by decide
theorem test_je : branchTable 0xF0007000 = [some 4, some 7, some 4, some 7] := by decide

/-- V-B1: a branch's unused fields are not tested. -/
theorem test_js_ignores_unused_fields :
    seen { machine 4 16 (.bits 32) 0 with im := [0, 0, 0, 0xBFF05FFF], pc := 3 } =
      some ([0, 0, 0, 0], true, true, 5, .running) := by decide

/-- V-B2: a branch past the end, then the halt test. -/
theorem test_je_past_the_end :
    seen { plain 0xFFFFFFFF with im := [0xFFFFFFFF, 0, 0, 0] } = some ([0, 0, 0, 0, 0], true, true, 255, .running) ∧
    seen { plain 0xFFFFFFFF with pc := 255 } = some ([0, 0, 0, 0, 0], true, true, 255, .halted) := by decide

/-! Placing a word, and the first step after reset. -/

/-- With nothing placed, the first step of the default machine halts (E7, V-H6). -/
theorem test_reset_halts : (after State.reset).map (·.status) = some .halted := by decide

/-- V-X2 as the first instruction after reset. -/
theorem test_withFetchWord_runs_the_word :
    (after (State.reset.withFetchWord 32 0x100C8330)).map (fun t => (t.regs.take 5, t.pc)) = some ([0, 0, 0, 200, 0], 1) :=
  by decide

/-- A word placed at an index past the store's end is the one fetched. -/
theorem test_withFetchWord_past_the_end :
    fetch ({ plain 0x10005000 with pc := 3, status := .halted }.withFetchWord 32 0x100C8330) = some 0x100C8330 := by
  decide

/-! The host: V-H1 to V-H6. -/

/-- The state after a session of host operations on a machine with both flags set at first. -/
def session (nregs : Nat) (prog : List Nat) (ops : List HostOp) : Option State :=
  (construct ⟨nregs, .bits 32, .size 16, prog, true, true⟩).bind (fun s => hostSession s ops)

theorem test_host_append_continues :
    (session 16 [0x10007110, 0x60001110] [.run 3, .append 0x60001110 [], .run 2]).map
      (fun t => (t.regs.take 2, t.pc, t.zf, t.sf, t.status)) = some ([0, 9], 3, false, false, .halted) := by decide

theorem test_host_reset_registers :
    (session 16 [0x10007110, 0x60001110] [.run 3, .resetRegisters]).map
      (fun t => (t.regs.take 2, t.pc, t.zf, t.sf, t.im.length)) = some ([0, 0], 2, false, false, 2) := by decide

theorem test_host_reset_store :
    (session 16 [0x10007110, 0x60001110] [.run 3, .resetRegisters, .resetStore,
      .append 0xA0000110 [0xF0003000, 0x10005220, 0x10006330], .run 4]).map
      (fun t => (t.regs.take 4, t.pc, t.zf, t.sf, t.status)) = some ([0, 0, 0, 6], 4, true, false, .halted) := by decide

theorem test_host_run_again_after_failure :
    (session 4 [0x10007110, 0x10001550] [.run 3, .run 3]).map (fun t => (t.regs, t.pc, t.status)) =
      some ([0, 7, 0, 0], 1, .failed .boundsFailure) := by decide

/-- E4 run: the words of `set [3,1,2,3]` on the default machine, read back. -/
theorem test_host_read_after_set :
    (session 16 [0x10001000, 0x30000000, 0x10002000, 0x30000110, 0x10003000, 0x30000220, 0x10000000] [.run 8]).map
      (fun t => ((readState t).dmem.take 4, (readState t).regs.take 1, (readState t).zf, (readState t).sf, t.pc)) =
      some ([1, 2, 3, 0], [0], true, true, 7) := by decide

/-- V-B4: a self-branch ends no run; the bound does. -/
theorem test_run_out_of_fuel : run 5 { plain 0xC0000000 with sf := false } = .outOfFuel { plain 0xC0000000 with sf := false } :=
  by decide

theorem test_construct_refuses :
    construct ⟨0, .bits 32, .size 16, [], true, true⟩ = none ∧ construct ⟨17, .bits 32, .size 16, [], true, true⟩ = none ∧
    construct ⟨16, .bits 8, .size 16, [], true, true⟩ = none ∧
    construct ⟨16, .bits 9, .contents [256], [], true, true⟩ = none ∧
    construct ⟨16, .bits 32, .size 0, [2 ^ 32], true, true⟩ = none ∧
    (construct ⟨1, .bits 9, .contents [255, -256], [2 ^ 32 - 1], true, true⟩).isSome = true := by decide

/-! The blocks on V-X15, V-A4 and V-X11: the cycle of the control table. -/

theorem test_block_xchg :
    (blockCycle (holding [(1, 5), (2, -2)] (plain 0x40000112)) 0x40000112).regs.take 3 = [0, -2, 5] := by decide

theorem test_block_failures :
    (blockCycle (holding [(1, 2147483647), (2, 1)] (plain 0x50000112)) 0x50000112).status = .failed .valueRangeFailure ∧
    (blockCycle (holding [(1, -1)] (plain 0xE0000441)) 0xE0000441).status = .failed .boundsFailure := by decide

/-! Witnesses: the hypotheses of the obligations are met together by concrete values, clause by clause, at the boundaries
of their ranges. `w4` is a machine of four registers, whose last index is 3, and of eight cells, whose last is 7. -/

/-- Four registers, eight cells, nine bits: -256 .. 255. -/
def w4 (w : Word) : State :=
  { machine 4 8 (.bits 9) w with regs := [5, 7, -1, 255], dm := ⟨8, [(7, 42)]⟩ }

theorem witness_DecodeOfEncodeIsIdentity : WellFormed (.movRI 15 255) = true := by decide

theorem witness_EncoderRoundTrips :
    (selectOpcode .mov .reg .ind = .ok 14 ∧ encodeOperands .mov ⟨.reg, 15⟩ ⟨.ind, 15⟩ = .ok 0xE0000FFF) ∧
    (selectOpcode .mov .reg .lit = .ok 1 ∧ encodeOperands .mov ⟨.reg, 0⟩ ⟨.lit, 255⟩ = .ok 0x100FF000) ∧
    encodeJump .je 255 = .ok 0xF00FF000 ∧ encodeJump .js 0 = .ok 0xB0000000 ∧
    (canonical 0x00000FFF = true ∧ decode 0x00000FFF = .ok (.movRR 15 15)) ∧
    (canonical 0x1ABFF37C = false ∧ decode 0x1ABFF37C = .ok (.movRI 7 255)) := by decide

theorem witness_EveryWordDecodes : 15 < (Fields.mk 16 0 0 0 0).opcode := by decide

theorem witness_UnusedBitsAreIgnored :
    (bits 0x00000112 31 28 = bits 0x0FFFFE12 31 28 ∧ bits 0x00000112 31 28 ∈ [0, 2, 3, 4, 5, 7, 9, 14] ∧
      bits 0x00000112 7 4 = bits 0x0FFFFE12 7 4 ∧ bits 0x00000112 3 0 = bits 0x0FFFFE12 3 0) ∧
    (bits 0xA0003110 31 28 = bits 0xAFF0301F 31 28 ∧ bits 0xA0003110 31 28 ∈ [1, 6, 8, 10] ∧
      bits 0xA0003110 19 12 = bits 0xAFF0301F 19 12 ∧ bits 0xA0003110 7 4 = bits 0xAFF0301F 7 4) ∧
    (bits 0xF00FF000 31 28 = bits 0xFFFFFFFF 31 28 ∧ bits 0xF00FF000 31 28 ∈ [11, 12, 13, 15] ∧
      bits 0xF00FF000 19 12 = bits 0xFFFFFFFF 19 12) := by decide

theorem witness_CanonicalWordsAreTheEncodersOutput :
    canonical 0x600FFFF0 = true ∧ encodeSource (.operands .add ⟨.reg, 15⟩ ⟨.lit, 255⟩) = .ok 0x600FFFF0 ∧
    encodeSource (.jump .jne 255) = .ok 0xD00FF000 := by decide

theorem witness_EncoderRefusesOutOfRange :
    selectOpcode .add .reg .lit = .ok 6 ∧ selectOpcode .mov .reg .dat = .ok 2 ∧
    ((-1 : Int) < 0 ∨ 15 < (-1 : Int)) ∧ ((16 : Int) < 0 ∨ 15 < (16 : Int)) ∧
    ((256 : Int) < 0 ∨ (if OperandKind.lit = .lit then 255 else 15) < (256 : Int)) ∧
    ((16 : Int) < 0 ∨ (if OperandKind.dat = .lit then 255 else 15) < (16 : Int)) ∧
    (0 ≤ (15 : Int) ∧ (15 : Int) ≤ 15 ∧ 0 ≤ (255 : Int) ∧ (255 : Int) ≤ (if OperandKind.lit = .lit then 255 else 15)) ∧
    (0 ≤ (255 : Int) ∧ (255 : Int) ≤ 255) ∧ ((256 : Int) < 0 ∨ 255 < (256 : Int)) := by decide

theorem witness_EncoderAcceptsTheListedPairs :
    (15 ≤ 15 ∧ 255 ≤ 255) ∧
    (Mnemonic.mov, OperandKind.dat, OperandKind.lit) ∉ [(.mov, .reg, .reg), (.mov, .reg, .lit), (.mov, .reg, .dat),
      (.mov, .dat, .reg), (.mov, .reg, .ind), (.xchg, .reg, .reg), (.add, .reg, .reg), (.add, .reg, .lit),
      (.sub, .reg, .reg), (.sub, .reg, .lit), (.cmp, .reg, .reg), (.cmp, .reg, .lit)] := by decide

theorem witness_WidthFailureIsNeverRaised :
    encodeSource (.jump .je 255) = .ok 0xF00FF000 ∧
    encodeSource (.operands .mov ⟨.reg, 15⟩ ⟨.ind, 15⟩) = .ok 0xE0000FFF ∧
    selectOpcode .mov .dat .lit = .error .usage ∧
    (selectOpcode .mov .reg .lit = .ok 1 ∧ ((16 : Int) < 0 ∨ 15 < (16 : Int))) := by decide

theorem witness_SetStoresItsValues :
    ((2 : Int) ≠ (([1] : List Int).length : Int)) ∧ ([1, 255] : List Int)[1]? = some 255 ∧
    setExpansion (2 :: [1, 255]) = .ok [.operands .mov ⟨.reg, 0⟩ ⟨.lit, 1⟩, .operands .mov ⟨.dat, 0⟩ ⟨.reg, 0⟩,
      .operands .mov ⟨.reg, 0⟩ ⟨.lit, 255⟩, .operands .mov ⟨.dat, 1⟩ ⟨.reg, 0⟩, .operands .mov ⟨.reg, 0⟩ ⟨.lit, 0⟩] ∧
    encodeAll [.operands .mov ⟨.reg, 0⟩ ⟨.lit, 1⟩, .operands .mov ⟨.dat, 0⟩ ⟨.reg, 0⟩,
      .operands .mov ⟨.reg, 0⟩ ⟨.lit, 255⟩, .operands .mov ⟨.dat, 1⟩ ⟨.reg, 0⟩, .operands .mov ⟨.reg, 0⟩ ⟨.lit, 0⟩] =
      .ok [0x10001000, 0x30000000, 0x100FF000, 0x30000110, 0x10000000] ∧
    1 ≤ (machine 1 2 (.bits 9) 0).nregs ∧ ([1, 255] : List Int).length ≤ (machine 1 2 (.bits 9) 0).dm.size ∧
    (machine 1 2 (.bits 9) 0).dm.wf = true := by decide

theorem witness_AssembledWordsAreCanonical :
    assemble [line "mov r15, 255"] = .ok [0x100FFFF0] ∧ (0x100FFFF0 : Word) ∈ [(0x100FFFF0 : Word)] := by decide

theorem witness_AssembledJumpsStayInside :
    assemble [line "cmp r0, r0", line "x: je x"] = .ok [0x90000000, 0xF0001000] ∧
    (0xF0001000 : Word) ∈ [(0x90000000 : Word), 0xF0001000] ∧
    (decodeFields 0xF0001000).opcode ∈ [11, 12, 13, 15] := by decide

theorem witness_PassTwoResolvesEveryJump :
    passTwo [(line "x", 255)] [.resolved 0x90000000, .pendingJump .je (line "x")] = .ok [0x90000000, 0xF00FF000] ∧
    (passTwo [(line "x", 256)] [.resolved 0x90000000] = .ok [0x90000000] ∧ lookupLabel (line "y") [(line "x", 256)] = none ∧
      lookupLabel (line "x") [(line "x", 256)] = some 256 ∧ 255 < 256) := by decide

theorem witness_MovRegisterToRegister :
    (w4 0).regs[3]? = some 255 ∧ 3 < (w4 0).nregs ∧ (w4 0).nregs ≤ 4 ∧ bits 0x0FFFFFFF 31 28 = 0 := by decide

theorem witness_MovLiteralToRegister : 3 < (w4 0).nregs ∧ (w4 0).nregs ≤ 4 ∧ bits 0x1FFFFFFF 31 28 = 1 := by decide

theorem witness_MovCellToRegister :
    7 < (w4 0).dm.size ∧ 3 < (w4 0).nregs ∧ (w4 0).dm.size ≤ 8 ∧ (w4 0).nregs ≤ 4 ∧ bits 0x2FFFFFFF 31 28 = 2 := by
  decide

theorem witness_MovRegisterToCell :
    (w4 0).regs[3]? = some 255 ∧ 7 < (w4 0).dm.size ∧ (w4 0).dm.wf = true ∧ (w4 0).nregs ≤ 4 ∧ (w4 0).dm.size ≤ 8 ∧
    bits 0x3FFFFFFF 31 28 = 3 := by decide

theorem witness_MovIndirectToRegister :
    ((w4 0).regs[1]? = some 7 ∧ (0 : Int) ≤ 7 ∧ (7 : Int) < ((w4 0).dm.size : Int) ∧ 3 < (w4 0).nregs) ∧
    ((w4 0).regs[2]? = some (-1) ∧ (-1 : Int) < 0) ∧
    ((holding [(1, 8)] (w4 0)).regs[1]? = some 8 ∧ ((holding [(1, 8)] (w4 0)).dm.size : Int) ≤ 8) ∧
    (w4 0).nregs ≤ 4 ∧ bits 0xEFFFFFFF 31 28 = 14 := by decide

theorem witness_ExchangeSwapsRegisters :
    ((w4 0).regs[0]? = some 5 ∧ (w4 0).regs[3]? = some 255) ∧ (w4 0).nregs ≤ 4 ∧ bits 0x4FFFFFFF 31 28 = 4 := by decide

theorem witness_AddRegister :
    ((w4 0).regs[2]? = some (-1) ∧ (w4 0).regs[3]? = some 255 ∧ inRange (w4 0).xlen (255 + -1) = true) ∧
    ((w4 0).regs[3]? = some 255 ∧ (w4 0).regs[0]? = some 5 ∧ inRange (w4 0).xlen (255 + 5) = false) ∧
    inRange (machine 4 8 .unbounded 0).xlen (2 ^ 64) = true ∧ (w4 0).nregs ≤ 4 ∧ bits 0x5FFFFFFF 31 28 = 5 := by decide

theorem witness_AddLiteral :
    ((w4 0).regs[3]? = some 255 ∧ inRange (w4 0).xlen (255 + ((0 : Nat) : Int)) = true ∧
      inRange (w4 0).xlen (255 + ((1 : Nat) : Int)) = false) ∧ (w4 0).nregs ≤ 4 ∧ bits 0x6FFFFFFF 31 28 = 6 := by decide

theorem witness_SubtractRegister :
    ((w4 0).regs[2]? = some (-1) ∧ (w4 0).regs[3]? = some 255 ∧ inRange (w4 0).xlen (-1 - 255) = true) ∧
    ((w4 0).regs[3]? = some 255 ∧ (w4 0).regs[2]? = some (-1) ∧ inRange (w4 0).xlen (255 - -1) = false) ∧
    (w4 0).nregs ≤ 4 ∧ bits 0x7FFFFFFF 31 28 = 7 := by decide

theorem witness_SubtractLiteral :
    ((w4 0).regs[2]? = some (-1) ∧ inRange (w4 0).xlen (-1 - ((255 : Nat) : Int)) = true) ∧
    ((holding [(2, -256)] (w4 0)).regs[2]? = some (-256) ∧ inRange (w4 0).xlen (-256 - ((1 : Nat) : Int)) = false) ∧
    (w4 0).nregs ≤ 4 ∧ bits 0x8FFFFFFF 31 28 = 8 := by decide

theorem witness_CompareRegister :
    ((w4 0).regs[3]? = some 255 ∧ (w4 0).regs[2]? = some (-1)) ∧ (w4 0).nregs ≤ 4 ∧ bits 0x9FFFFFFF 31 28 = 9 := by decide

theorem witness_CompareLiteral :
    (w4 0).regs[2]? = some (-1) ∧ (w4 0).nregs ≤ 4 ∧ bits 0xAFFFFFFF 31 28 = 10 := by decide

theorem witness_Jumps :
    bits 0xBFFFFFFF 31 28 = 11 ∧ bits 0xCFFFFFFF 31 28 = 12 ∧ bits 0xDFFFFFFF 31 28 = 13 ∧ bits 0xFFFFFFFF 31 28 = 15 ∧
    255 ≤ 255 := by decide

theorem witness_MoveFrame :
    (Instr.movRX 3 1 ∈ [Instr.movRR 3 1, .movRI 3 1, .movRD 3 1, .movRX 3 1]) ∧ 2 ≠ 3 ∧
    (∃ t, exec (.movRX 3 1) (w4 0) = .next t ∧ t.status = .running) ∧
    (∃ t, exec (.movRX 3 2) (w4 0) = .next t ∧ t.status = .failed .boundsFailure) :=
  ⟨by decide, by decide, ⟨_, rfl, by decide⟩, ⟨_, rfl, by decide⟩⟩

theorem witness_ArithmeticFrame :
    (Instr.subRI 2 255 ∈ [Instr.addRR 2 255, .addRI 2 255, .subRR 2 255, .subRI 2 255]) ∧ 3 ≠ 2 ∧
    (∃ t, exec (.subRI 2 255) (w4 0) = .next t ∧ t.status = .running) ∧
    (∃ t, exec (.addRR 3 0) (w4 0) = .next t ∧ t.status = .failed .valueRangeFailure) :=
  ⟨by decide, by decide, ⟨_, rfl, by decide⟩, ⟨_, rfl, by decide⟩⟩

theorem witness_CompareFrame :
    (Instr.cmpRR 3 2 ∈ [Instr.cmpRR 3 2, .cmpRI 3 2]) ∧
    (∃ t, exec (.cmpRR 3 2) (w4 0) = .next t ∧ t.status = .running) ∧
    (∃ t, exec (.cmpRI 4 2) (w4 0) = .next t ∧ t.status = .failed .boundsFailure) :=
  ⟨by decide, ⟨_, rfl, by decide⟩, ⟨_, rfl, by decide⟩⟩

theorem witness_StoreFrame :
    (∃ t, exec (.movDR 7 3) (w4 0) = .next t ∧ t.dm.get 7 = 255) ∧
    (∃ t, exec (.movDR 8 3) (w4 0) = .next t ∧ t.status = .failed .boundsFailure) ∧
    ((6 : Nat) : Int) ≠ directAddress 7 :=
  ⟨⟨_, rfl, by decide⟩, ⟨_, rfl, by decide⟩, by decide⟩

theorem witness_ExchangeFrame :
    (∃ t, exec (.xchg 0 3) (w4 0) = .next t ∧ t.regs = [255, 7, -1, 5]) ∧ 1 ≠ 0 ∧ 1 ≠ 3 :=
  ⟨⟨_, rfl, by decide⟩, by decide⟩

theorem witness_BranchFrame :
    isBranch (.je 255) = true ∧ (∃ t, exec (.je 255) (w4 0) = .next t ∧ t.pc = 255) ∧
    (∃ t, exec (.jne 255) (w4 0) = .next t ∧ t.pc = 1) :=
  ⟨by decide, ⟨_, rfl, by decide⟩, ⟨_, rfl, by decide⟩⟩

theorem witness_StepExecutesTheDecodedInstruction :
    (w4 0xFFFFFFFF).status = .running ∧ (w4 0xFFFFFFFF).im[(w4 0xFFFFFFFF).pc]? = some 0xFFFFFFFF ∧
    decode 0xFFFFFFFF = .ok (.je 255) := by decide

theorem witness_HaltTestEndsTheRun :
    { w4 0 with pc := 1 }.status = .running ∧ { w4 0 with pc := 1 }.progLen ≤ { w4 0 with pc := 1 }.pc ∧
    ∃ t, step { w4 0 with pc := 1 } = .next t ∧ t.status = .halted :=
  ⟨by decide, by decide, ⟨_, rfl, by decide⟩⟩

theorem witness_TerminalStatusStopsTheStep :
    { w4 0 with status := .halted }.status = .halted ∧
    { w4 0 with status := .failed .boundsFailure }.status = .failed .boundsFailure ∧ (w4 0).status = .running := by decide

/-- Taken and not taken, for each branch, and a word that is no branch. -/
theorem witness_PcAdvancesOrTakesTheLiteral :
    [0xB00FF000, 0xC00FF000, 0xD00FF000, 0xF00FF000, 0x00000000].all (fun w =>
      decide ((w4 w).status = .running) && decide ((w4 w).im[(w4 w).pc]? = some w) &&
      decide ((after (w4 w)).map (·.status) = some .running)) = true ∧
    [0xB00FF000, 0xC00FF000, 0xD00FF000, 0xF00FF000, 0x00000000].map (fun w => (after (w4 w)).map (·.pc)) =
      [some 255, some 1, some 1, some 255, some 1] := by decide

theorem witness_FailureIsPrecise :
    (w4 0x50000330).status = .running ∧
    (∃ t, step (w4 0x50000330) = .next t ∧ t.status = .failed .valueRangeFailure) ∧
    (∃ t, step (w4 0x00000004) = .next t ∧ t.status = .failed .boundsFailure) :=
  ⟨by decide, ⟨_, rfl, by decide⟩, ⟨_, rfl, by decide⟩⟩

theorem witness_BoundsFailureByTheTable :
    [Instr.movRR 0 4, .xchg 4 0, .addRR 3 4, .movRI 4 0, .cmpRI 4 0, .movRD 0 8, .movDR 8 0, .movDR 0 4, .movRX 0 2,
      .movRX 4 1, .movRX 0 3].all (fun i => indexOutside i (w4 0)) = true ∧
    [Instr.movRR 3 3, .xchg 3 0, .addRR 3 0, .movRI 3 0, .movRD 3 7, .movDR 7 3, .movRX 3 1, .js 255].all
      (fun i => !indexOutside i (w4 0)) = true ∧
    (w4 0).status = .running ∧ ∃ t, exec (.addRR 3 0) (w4 0) = .next t :=
  ⟨by decide, by decide, by decide, ⟨_, rfl⟩⟩

theorem witness_CyclesAreSafeExactly :
    (w4 0x80001330).status = .running ∧ (w4 0x80001330).im[(w4 0x80001330).pc]? = some 0x80001330 ∧
    decode 0x80001330 = .ok (.subRI 3 1) ∧ (∃ t, step (w4 0x80001330) = .next t ∧ t.status = .running) ∧
    (∃ t, step (w4 0x60001330) = .next t ∧ t.status = .failed .valueRangeFailure) :=
  ⟨by decide, by decide, by decide, ⟨_, rfl, by decide⟩, ⟨_, rfl, by decide⟩⟩

/-- Both sides of the equivalence: 255 + 1 on nine bits, 255 + 0 on nine bits, any sum on an unbounded machine. -/
theorem witness_ValueRangeFailureExactly :
    (w4 0).status = .running ∧ storesResult (.addRI 3 1) = true ∧ arithResult (.addRI 3 1) (w4 0) = some 256 ∧
    (w4 0).xlen = .bits 9 ∧ (2 : Int) ^ (9 - 1) - 1 < 256 ∧ arithResult (.addRI 3 0) (w4 0) = some 255 ∧
    ¬((2 : Int) ^ (9 - 1) - 1 < 255) ∧
    (∃ t, exec (.addRI 3 1) (w4 0) = .next t ∧ t.status = .failed .valueRangeFailure) ∧
    (∃ t, exec (.addRI 3 1) { w4 0 with xlen := .unbounded } = .next t ∧ t.status = .running) :=
  ⟨by decide, by decide, by decide, by decide, by decide, by decide, by decide, ⟨_, rfl, by decide⟩, ⟨_, rfl, by decide⟩⟩

theorem witness_EveryInstructionCompletes :
    [Instr.movRR 3 3, .movRI 3 255, .movRD 3 7, .movDR 7 3, .xchg 0 3, .addRR 3 2, .addRI 3 0, .subRR 2 3, .subRI 2 255,
      .cmpRR 3 2, .cmpRI 2 255, .js 255, .jns 255, .jne 255, .movRX 3 1, .je 255].all (fun i =>
      !indexOutside i (w4 0) && (!storesResult i || (arithResult i (w4 0)).all (inRange (w4 0).xlen))) = true := by decide

theorem witness_FlagsFollowTheExactResult :
    isArithmetic (.cmpRR 3 2) = true ∧ (w4 0).status = .running ∧
    (∃ t, exec (.cmpRR 3 2) (w4 0) = .next t ∧ t.status = .running ∧ t.zf = false ∧ t.sf = false) ∧
    (∃ t, exec (.subRR 0 0) (w4 0) = .next t ∧ t.status = .running ∧ t.zf = true ∧ t.sf = false) ∧
    (∃ t, exec (.cmpRI 2 0) (w4 0) = .next t ∧ t.status = .running ∧ t.zf = false ∧ t.sf = true) ∧
    isArithmetic (.je 0) = false ∧
    (∃ t, step { w4 0x90000000 with sf := false } = .next t ∧ { w4 0x90000000 with sf := false }.FlagsInv) :=
  ⟨by decide, by decide, ⟨_, rfl, by decide⟩, ⟨_, rfl, by decide⟩, ⟨_, rfl, by decide⟩, by decide, ⟨_, rfl, by decide⟩⟩

theorem witness_StepKeepsTheInvariant :
    (w4 0x30000773).Inv ∧ ∃ t, step (w4 0x30000773) = .next t ∧ t.dm.cells = [(7, 255)] :=
  ⟨by decide, ⟨_, rfl, by decide⟩⟩

/-- A failing step from a state that meets the invariant. -/
theorem witness_StepKeepsTheInvariant_failing :
    (w4 0x50000330).Inv ∧ ∃ t, step (w4 0x50000330) = .next t ∧ t.status = .failed .valueRangeFailure :=
  ⟨by decide, ⟨_, rfl, by decide⟩⟩

theorem witness_ConstructedMachinesMeetTheInvariant :
    ∃ s, construct ⟨1, .bits 9, .contents [255, -256], [2 ^ 32 - 1], true, false⟩ = some s := ⟨_, rfl⟩

theorem witness_StepKeepsThePcBound :
    { w4 0 with pc := 255 }.PcInv ∧ ∃ t, step { w4 0 with pc := 255 } = .next t := ⟨by decide, ⟨_, rfl⟩⟩

theorem witness_StepKeepsTheMachineAndHighCells :
    (∃ t, step { w4 0x30000773 with dm := ⟨17, [(16, 9)]⟩ } = .next t ∧ t.dm.cells = [(7, 255), (16, 9)]) ∧ 16 ≤ 16 :=
  ⟨⟨_, rfl, by decide⟩, by decide⟩

theorem witness_ConstructionGivesTheResetValues :
    (∃ s, construct ⟨16, .unbounded, .contents [4, 0, -9], [], false, true⟩ = some s) ∧
    (∃ s, construct ⟨1, .bits 9, .size 2, [0xFFFFFFFF], true, true⟩ = some s) ∧
    ([4, 0, -9] : List Int)[2]? = some (-9) ∧ 1 < 2 :=
  ⟨⟨_, rfl⟩, ⟨_, rfl⟩, by decide, by decide⟩

theorem witness_HostOperationsChangeOnlyTheirs :
    { w4 0 with pc := 1 }.pc = { w4 0 with pc := 1 }.progLen ∧ 3 < (w4 0).nregs := by decide

/-- A run of a constructed machine that ends in each of the three ways. -/
theorem witness_RunsEndLegally :
    (session 4 [] [.run 1]).map (·.status) = some .halted ∧
    (session 4 [0x10001550] [.run 2]).map (·.status) = some (.failed .boundsFailure) ∧
    ((construct ⟨4, .bits 9, .size 1, [0x100FF000, 0x50000000], true, true⟩).bind
      (fun s => hostSession s [.run 3])).map (·.status) = some (.failed .valueRangeFailure) := by decide

theorem witness_BlocksComputeTheCycle :
    (w4 0xE0000331).status = .running ∧ (w4 0xE0000331).im[(w4 0xE0000331).pc]? = some 0xE0000331 := by decide

theorem witness_BranchAfterCompare :
    ((w4 0).regs[2]? = some (-1) ∧ (w4 0).regs[3]? = some 255 ∧ ∃ t, exec (.cmpRR 2 3) (w4 0) = .next t) ∧
    ((w4 0).regs[3]? = some 255 ∧ (255 : Int) = ((255 : Nat) : Int) ∧ ∃ t, exec (.cmpRI 3 255) (w4 0) = .next t) ∧
    (storesResult (.subRI 2 255) = true ∧ arithResult (.subRI 2 255) (w4 0) = some (-256) ∧ (w4 0).status = .running ∧
      ∃ t, exec (.subRI 2 255) (w4 0) = .next t ∧ t.status = .running) :=
  ⟨⟨by decide, by decide, ⟨_, rfl⟩⟩, ⟨by decide, by decide, ⟨_, rfl⟩⟩, ⟨by decide, by decide, by decide, ⟨_, rfl, by decide⟩⟩⟩

theorem witness_InitialFlagsAreForgotten :
    isArithmetic (.cmpRI 0 5) = true ∧ sameUpToFlags (w4 0) { w4 0 with sf := false, zf := false } ∧
    (w4 0).status = .running ∧ (∃ t, exec (.cmpRI 0 5) (w4 0) = .next t ∧ t.status = .running) ∧
    isBranch (.movRR 0 1) = false ∧ ∃ t, exec (.movRR 0 1) (w4 0) = .next t :=
  ⟨by decide, rfl, by decide, ⟨_, rfl, by decide⟩, by decide, ⟨_, rfl⟩⟩

/-- A taken branch to PROG_LEN itself, and a taken branch to its own index. -/
theorem witness_BranchPastTheEndHaltsAndSelfBranchLoops :
    ((w4 0xF0001000).im[(w4 0xF0001000).pc]? = some 0xF0001000 ∧ decode 0xF0001000 = .ok (.je 1) ∧
      takenTarget (.je 1) (w4 0xF0001000) = some 1 ∧ (w4 0xF0001000).progLen ≤ 1) ∧
    ((w4 0xF0000000).im[(w4 0xF0000000).pc]? = some 0xF0000000 ∧ decode 0xF0000000 = .ok (.je 0) ∧
      takenTarget (.je 0) (w4 0xF0000000) = some 0 ∧ 0 = (w4 0xF0000000).pc) ∧ (w4 0xF0000000).status = .running := by
  decide

theorem witness_LoadAfterStoreGivesTheValue :
    (w4 0).dm.wf = true ∧ (w4 0).regs[3]? = some 255 ∧ 7 < (w4 0).dm.size ∧ 2 < (w4 0).nregs ∧
    (w4 0).regs[1]? = some ((7 : Nat) : Int) := by decide

end Sys2Proof.Tests
end

section
/-! Proofs of the scope family: construction, and the default machine (spec/00_scope.md R7 to R9). -/

namespace Sys2Proof.Machine

/-- R210 and R212: inputs that are valid construct the state of R25. -/
theorem construct_of_paramsValid {p : Params} (h : paramsValid p = true) : construct p = some (initialState p) :=
  if_pos h

theorem paramsValid_default : paramsValid Config.default = true := by decide

/-- The zero fill of a memory given by its size adds no pair, so the two states agree field by field. -/
theorem initialState_default : initialState Config.default = State.reset := rfl

theorem construct_default : construct Config.default = some State.reset := by
  rw [construct_of_paramsValid paramsValid_default, initialState_default]

/-- Settles O53: the listed parameters are `Config.default`, which is valid and whose initial state is the reset state. -/
theorem resetIsTheDefaultMachine : Obligations.ResetIsTheDefaultMachine :=
  ⟨construct_default, rfl, rfl, rfl, rfl, rfl⟩

end Sys2Proof.Machine
end


section
/-! Laws of the state family: the instruction a word decodes to, the cells a write leaves alone, and `Effect`, which
says once everything an executed instruction can do to the state. -/

namespace Sys2Proof

/-- R56, R76: fields that fit their bits select an operation, and it is well formed. -/
theorem selectInstr_wellFormed {f : Fields} (ho : f.opcode ≤ 15) (hl : f.literal ≤ 255) (ha : f.op1 ≤ 15)
    (hb : f.op2 ≤ 15) : ∃ i, selectInstr f = .ok i ∧ WellFormed i = true := by
  obtain ⟨opc, l, d, a, b⟩ := f
  dsimp only at ho hl ha hb
  interval_cases opc <;> exact ⟨_, rfl, by simp [WellFormed, isIdx4, isLit8, hl, ha, hb]⟩

theorem decode_wellFormed (w : Word) : ∃ i, decode w = .ok i ∧ WellFormed i = true :=
  selectInstr_wellFormed (opcode_le w) (literal_le w) (op1_le w) (op2_le w)

end Sys2Proof

namespace Sys2Proof.Machine

/-! Cells: unlike `cellAt_putCell`, the frame of a write holds for every list, canonical or not. -/

theorem cellAt_consCell_of_ne {a b : Nat} (h : a ≠ b) (v : Value) (cells : List (Nat × Value)) :
    cellAt (consCell a v cells) b = cellAt cells b := by
  unfold consCell
  split
  · rfl
  · simp [cellAt, h]

theorem cellAt_putCell_of_ne {a b : Nat} (h : a ≠ b) (v : Value) (cells : List (Nat × Value)) :
    cellAt (putCell cells a v) b = cellAt cells b := by
  induction cells with
  | nil => exact cellAt_consCell_of_ne h v []
  | cons c rest ih =>
    obtain ⟨k, u⟩ := c
    simp only [putCell]
    split
    · exact cellAt_consCell_of_ne h v _
    · split
      · next hk => simp [cellAt_consCell_of_ne h, cellAt, ← hk, h]
      · simp [cellAt, ih]

theorem Memory.get_put_of_ne {a b : Nat} (h : a ≠ b) (m : Memory) (v : Value) : (m.put a v).get b = m.get b :=
  cellAt_putCell_of_ne h v m.cells

/-- What a cell reads is listed with its address, or is the value of an unlisted cell. -/
theorem cellAt_listed_or_unlisted (cells : List (Nat × Value)) (a : Nat) :
    (a, cellAt cells a) ∈ cells ∨ cellAt cells a = Config.unlistedCell := by
  induction cells with
  | nil => exact .inr rfl
  | cons c rest ih =>
    obtain ⟨k, v⟩ := c
    simp only [cellAt]
    split
    · next hk => exact .inl (by simp [hk])
    · exact ih.imp_left (List.mem_cons_of_mem _)

/-! The operations raise only the two kinds a run can end in (R181, R184). -/

/-- What `x` raises ends the run in a legal status. -/
def RaisesLegally {α : Type} (x : Except Failure α) : Prop :=
  ∀ f, x = .error f → statusLegal (.failed f.kind) = true

theorem readReg_raisesLegally (s : State) (i : Nat) : RaisesLegally (readReg s i) := fun f h => by
  rw [(readReg_error_iff.mp h).2]; rfl

theorem writeReg_raisesLegally (s : State) (i : Nat) (v : Value) : RaisesLegally (writeReg s i v) := fun f h => by
  rw [(writeReg_error_iff.mp h).2]; rfl

theorem memRead_raisesLegally (s : State) (a : Int) : RaisesLegally (memRead s a) := fun f h => by
  rw [(memRead_error_iff.mp h).2]; rfl

theorem memWrite_raisesLegally (s : State) (a : Int) (v : Value) : RaisesLegally (memWrite s a v) := fun f h => by
  rw [(memWrite_error_iff.mp h).2]; rfl

theorem loadIndirect_raisesLegally (s : State) (b : Nat) : RaisesLegally (loadIndirect s b) := fun f h => by
  rcases bind_error_iff.mp h with h | ⟨p, -, h⟩
  · exact readReg_raisesLegally s b f h
  · exact memRead_raisesLegally s p f h

theorem arithStore_raisesLegally (s : State) (a : Nat) (res : Value) : RaisesLegally (arithStore s a res) := by
  intro f h
  rcases arithStore_error_iff.mp h with ⟨-, rfl⟩ | ⟨-, -, rfl⟩ <;> rfl

/-! The effect of an instruction. -/

/-- The value the four moves to a register store (R121 to R123, R125), where the operands exist. -/
def movedValue (i : Instr) (s : State) : Option Value :=
  match i with
  | .movRR _ b => s.regs[b]?
  | .movRI _ l => some (literal l)
  | .movRD _ b => (loadDirect s b).toOption
  | .movRX _ b => (loadIndirect s b).toOption
  | _ => none

/-- What executing an instruction in `s` can lead to, one constructor per way (R12): the failure it raised, or the
whole next state of a move, an exchange, a store, an ADD or SUB, a CMP or a branch. `exec_effect` ties it to `exec`. -/
inductive Effect (s : State) : Instr → State → Prop where
  | failure {i : Instr} {f : Failure} (hf : statusLegal (.failed f.kind) = true) : Effect s i (raiseFailure s f)
  | move {i : Instr} {a : Nat} {v : Value} (hw : registersWritten i = [a]) (hv : movedValue i s = some v)
      (ha : a < s.nregs) : Effect s i { s with regs := s.regs.set a v }.advance
  | exchange {a b : Nat} {v u : Value} (hv : s.regs[a]? = some v) (hu : s.regs[b]? = some u) :
      Effect s (.xchg a b) { s with regs := (s.regs.set a u).set b v }.advance
  | store {a b : Nat} {v : Value} (hv : s.regs[b]? = some v) (ha : a < s.dm.size) :
      Effect s (.movDR a b) { s with dm := s.dm.put a v }.advance
  | arith {i : Instr} {a : Nat} {res : Value} (hi : storesResult i = true) (hw : registersWritten i = [a])
      (hres : arithResult i s = some res) (hr : inRange s.xlen res = true) (ha : a < s.nregs) :
      Effect s i (setFlags { s with regs := s.regs.set a res } res).advance
  | compare {i : Instr} {res : Value} (hi : isArithmetic i = true) (hw : registersWritten i = [])
      (hres : arithResult i s = some res) : Effect s i (setFlags s res).advance
  | branch {i : Instr} {taken : Bool} {l : Nat} (hi : isBranch i = true)
      (ht : takenTarget i s = if taken then some l else none) : Effect s i (s.branch taken l)

namespace Effect

variable {s t : State} {i : Instr}

/-- An instruction whose next operation is `x` fails with it or goes on with its value. -/
theorem of_bind {α : Type} {x : Except Failure α} {g : α → Except Failure State} (hx : RaisesLegally x)
    (h : finish s (x >>= g) = .next t) (hg : ∀ v, x = .ok v → finish s (g v) = .next t → Effect s i t) :
    Effect s i t := by
  cases x with
  | ok v => exact hg v rfl h
  | error f => cases h; exact .failure (hx f rfl)

theorem of_readReg {b : Nat} {g : Value → Except Failure State} (h : finish s (readReg s b >>= g) = .next t)
    (hg : ∀ v, s.regs[b]? = some v → finish s (g v) = .next t → Effect s i t) : Effect s i t :=
  of_bind (readReg_raisesLegally s b) h fun v hv => hg v (readReg_ok_iff.mp hv)

/-- The end of a move: the register write. -/
theorem of_writeReg {a : Nat} {v : Value} (hw : registersWritten i = [a]) (hv : movedValue i s = some v)
    (h : finish s (writeReg s a v >>= fun u => pure u.advance) = .next t) : Effect s i t :=
  of_bind (writeReg_raisesLegally s a v) h fun u hu hn => by
    obtain ⟨ha, rfl⟩ := writeReg_ok_iff.mp hu
    cases hn
    exact .move hw hv ha

/-- The end of an ADD or SUB: the range test, the register write and the flags. -/
theorem of_arithStore {a : Nat} {res : Value} (hi : storesResult i = true) (hw : registersWritten i = [a])
    (hres : arithResult i s = some res)
    (h : finish s (arithStore s a res >>= fun u => pure u.advance) = .next t) : Effect s i t :=
  of_bind (arithStore_raisesLegally s a res) h fun u hu hn => by
    obtain ⟨hr, ha, rfl⟩ := arithStore_ok_iff.mp hu
    cases hn
    exact .arith hi hw hres hr ha

/-- The end of MOV_DR: the store to the direct address. -/
theorem of_storeDirect {a b : Nat} {v : Value} (hv : s.regs[b]? = some v)
    (h : finish s (storeDirect s a v >>= fun u => pure u.advance) = .next t) : Effect s (.movDR a b) t :=
  of_bind (memWrite_raisesLegally s _ v) h fun u hu hn => by
    obtain ⟨⟨-, ha⟩, rfl⟩ := memWrite_ok_iff.mp hu
    cases hn
    exact .store hv (Int.ofNat_lt.mp ha)

/-- The end of XCHG: both register writes. -/
theorem of_exchange {a b : Nat} {v u : Value} (hv : s.regs[a]? = some v) (hu : s.regs[b]? = some u)
    (h : finish s (writeReg s a u >>= fun x => writeReg x b v >>= fun y => pure y.advance) = .next t) :
    Effect s (.xchg a b) t :=
  of_bind (writeReg_raisesLegally s a u) h fun x hx h =>
    of_bind (writeReg_raisesLegally x b v) h fun y hy hn => by
      obtain ⟨-, rfl⟩ := writeReg_ok_iff.mp hx
      obtain ⟨-, rfl⟩ := writeReg_ok_iff.mp hy
      cases hn
      exact .exchange hv hu

/-- The end of a CMP: the flags. -/
theorem of_arithCompare {res : Value} (hi : isArithmetic i = true) (hw : registersWritten i = [])
    (hres : arithResult i s = some res) (h : finish s (pure (arithCompare s res).advance) = .next t) :
    Effect s i t := by
  cases h
  exact .compare hi hw hres

theorem of_branch {taken : Bool} {l : Nat} (hi : isBranch i = true)
    (ht : takenTarget i s = if taken then some l else none)
    (h : Host.Outcome.next (s.branch taken l) = (.next t : Host.Outcome State Fault Refusal)) : Effect s i t := by
  cases h
  exact .branch hi ht

end Effect

/-- Everything an executed instruction can do, arm by arm of the dispatch (R104). -/
theorem exec_effect {i : Instr} {s t : State} (h : exec i s = .next t) : Effect s i t := by
  cases i with
  | movRR a b => exact .of_readReg h fun v hv => .of_writeReg rfl hv
  | movRI a l => exact .of_writeReg rfl rfl h
  | movRD a b =>
    exact .of_bind (memRead_raisesLegally s _) h fun v hv => .of_writeReg rfl (congrArg Except.toOption hv)
  | movRX a b =>
    exact .of_bind (loadIndirect_raisesLegally s b) h fun v hv => .of_writeReg rfl (congrArg Except.toOption hv)
  | movDR a b => exact .of_readReg h fun v hv => .of_storeDirect hv
  | xchg a b => exact .of_readReg h fun v hv h => .of_readReg h fun u hu => .of_exchange hv hu
  | addRR a b =>
    exact .of_readReg h fun p hp h => .of_readReg h fun q hq =>
      .of_arithStore rfl rfl (by simp [arithResult, hp, hq, aluAdd])
  | addRI a l => exact .of_readReg h fun p hp => .of_arithStore rfl rfl (by simp [arithResult, hp, aluAdd, literal])
  | subRR a b =>
    exact .of_readReg h fun p hp h => .of_readReg h fun q hq =>
      .of_arithStore rfl rfl (by simp [arithResult, hp, hq, aluSub])
  | subRI a l => exact .of_readReg h fun p hp => .of_arithStore rfl rfl (by simp [arithResult, hp, aluSub, literal])
  | cmpRR a b =>
    exact .of_readReg h fun p hp h => .of_readReg h fun q hq =>
      .of_arithCompare rfl rfl (by simp [arithResult, hp, hq, aluSub])
  | cmpRI a l => exact .of_readReg h fun p hp => .of_arithCompare rfl rfl (by simp [arithResult, hp, aluSub, literal])
  | js l => exact .of_branch rfl rfl h
  | jns l => exact .of_branch rfl (by simp [takenTarget]) h
  | jne l => exact .of_branch rfl (by simp [takenTarget]) h
  | je l => exact .of_branch rfl rfl h

theorem finish_answers_next (s : State) (r : Except Failure State) : ∃ t, finish s r = .next t := by
  cases r with
  | ok u => exact ⟨u, rfl⟩
  | error f => exact ⟨raiseFailure s f, rfl⟩

/-- R190: an instruction answers a next state even when it fails. -/
theorem exec_answers_next (i : Instr) (s : State) : ∃ t, exec i s = .next t := by
  cases i with
  | js | jns | jne | je => exact ⟨_, rfl⟩
  | _ => exact finish_answers_next s _

/-! The step, from the fetch and the decode. -/

/-- R101: the halt test. -/
theorem step_of_fetch_none {s : State} (hs : s.status = .running) (hf : fetch s = none) : step s = .next s.halt := by
  simp only [step, hs, hf]

/-- R102 to R105: the cycle is the execution of the decoded instruction. -/
theorem step_of_decode {s : State} {w : Word} {i : Instr} (hs : s.status = .running) (hf : fetch s = some w)
    (hd : decode w = .ok i) : step s = exec i s := by
  simp only [step, hs, hf, hd]

/-- R23, R107: a step that answers a next state began with the status running. -/
theorem running_of_step_next {s t : State} (h : step s = .next t) : s.status = .running := by
  unfold step at h
  split at h
  · cases h
  · cases h
  · assumption

/-- What a step that answers a next state did: the halt test was met, or the well-formed instruction of the fetched
word was executed (R101 to R105). -/
theorem step_next_cases {s t : State} (h : step s = .next t) :
    (fetch s = none ∧ t = s.halt) ∨
      ∃ w i, fetch s = some w ∧ decode w = .ok i ∧ WellFormed i = true ∧ exec i s = .next t := by
  have hs := running_of_step_next h
  cases hf : fetch s with
  | none =>
    rw [step_of_fetch_none hs hf] at h
    cases h
    exact .inl ⟨rfl, rfl⟩
  | some w =>
    obtain ⟨i, hd, hi⟩ := decode_wellFormed w
    exact .inr ⟨w, i, rfl, hd, hi, step_of_decode hs hf hd ▸ h⟩

end Sys2Proof.Machine
end

section
/-! Proofs of the state family: what every `Effect` leaves unchanged (spec/10_state.md R12, R20, R21), where it takes pc
(R14), and the invariant it keeps (R22). -/

namespace Sys2Proof.Machine

theorem isArithmetic_of_storesResult {i : Instr} (h : storesResult i = true) : isArithmetic i = true := by
  cases i <;> simp_all [storesResult, isArithmetic]

/-- R6: a taken branch of a well-formed instruction goes to a literal. -/
theorem takenTarget_le {i : Instr} {s : State} {l : Nat} (hi : WellFormed i = true) (h : takenTarget i s = some l) :
    l ≤ 255 := by
  cases i <;> simp_all [takenTarget, WellFormed, isLit8]

namespace Effect

variable {s t : State} {i : Instr}

/-- R12: a register the instruction does not write is unchanged. -/
theorem regs_eq (h : Effect s i t) {r : Nat} (hr : r ∉ registersWritten i) : t.regs[r]? = s.regs[r]? := by
  cases h with
  | failure | store | compare | branch => rfl
  | move hw => exact List.getElem?_set_ne (by simpa [hw, eq_comm] using hr)
  | arith _ hw => exact List.getElem?_set_ne (by simpa [hw, eq_comm] using hr)
  | exchange =>
    simp only [registersWritten, List.mem_cons, List.not_mem_nil, or_false, not_or] at hr
    exact (List.getElem?_set_ne (Ne.symm hr.2)).trans (List.getElem?_set_ne (Ne.symm hr.1))

theorem regs_eq_of_writes_none (h : Effect s i t) (hw : registersWritten i = []) : t.regs = s.regs :=
  List.ext_getElem? fun r => h.regs_eq (by simp [hw])

/-- R120, R160: only the arithmetic instructions change the flags. -/
theorem sameFlags (h : Effect s i t) (hi : isArithmetic i = false) : SameFlags s t := by
  cases h with
  | failure | move | exchange | store | branch => exact ⟨rfl, rfl⟩
  | arith hs => rw [isArithmetic_of_storesResult hs] at hi; cases hi
  | compare ha => rw [ha] at hi; cases hi

/-- R21: only MOV_DR changes a cell, and only the one its direct address names. -/
theorem get_eq (h : Effect s i t) {addr : Nat} (hi : ∀ b, i ≠ .movDR addr b) : t.dm.get addr = s.dm.get addr := by
  cases h with
  | failure | move | exchange | arith | compare | branch => rfl
  | @store a b v => exact Memory.get_put_of_ne (fun ha => hi b (by rw [ha])) s.dm v

/-- Every cell is unchanged by an instruction other than MOV_DR. -/
theorem sameCells (h : Effect s i t) (hi : ∀ a b, i ≠ .movDR a b) : SameCells s t :=
  fun addr => h.get_eq (hi addr)

/-- R11, R20: what no instruction changes. -/
theorem sameMachine (h : Effect s i t) : SameMachine s t := by
  cases h with
  | failure | store | compare | branch => exact ⟨rfl, rfl, rfl, rfl⟩
  | move | exchange | arith => exact ⟨rfl, rfl, by simp [State.nregs], rfl⟩

/-- R106: pc stays at a failing instruction, advances by one, or is the target of a taken branch. -/
theorem pc_cases (h : Effect s i t) : t.pc = s.pc ∨ t.pc = s.pc + 1 ∨ takenTarget i s = some t.pc := by
  cases h with
  | failure => exact .inl rfl
  | move | exchange | store | arith | compare => exact .inr (.inl rfl)
  | @branch _ taken l _ ht =>
    cases taken with
    | false => exact .inr (.inl rfl)
    | true => exact .inr (.inr ht)

end Effect

/-! The invariant. It speaks of xlen, the registers, data memory and the status, so that an update of pc or of the
flags keeps it by definition. -/

theorem inRange_bits_iff {n : Nat} {v : Int} :
    inRange (.bits n) v = true ↔ -((2 ^ (n - 1) : Nat) : Int) ≤ v ∧ v ≤ ((2 ^ (n - 1) : Nat) : Int) - 1 := by
  simp [inRange]

/-- R9: with an admitted XLEN every number a literal can hold is a Value. -/
theorem inRange_of_le {x : Xlen} (hx : xlenValid x = true) {v : Int} (h0 : 0 ≤ v) (h1 : v ≤ 255) :
    inRange x v = true := by
  cases x with
  | unbounded => rfl
  | bits n =>
    have hn : 9 ≤ n := of_decide_eq_true hx
    have hp : 2 ^ 8 ≤ 2 ^ (n - 1) := Nat.pow_le_pow_right (by decide) (by omega)
    rw [inRange_bits_iff]
    omega

theorem ok_of_toOption {α : Type} {x : Except Failure α} {v : α} (h : x.toOption = some v) : x = .ok v := by
  cases x with
  | ok u => exact congrArg Except.ok (Option.some.inj h)
  | error f => cases h

namespace State.Inv

variable {s : State}

theorem reg_inRange (h : s.Inv) {b : Nat} {v : Value} (hv : s.regs[b]? = some v) : inRange s.xlen v = true := by
  obtain ⟨-, -, -, hregs, -, -, -⟩ := h
  exact hregs v (List.mem_of_getElem? hv)

/-- R22: every cell reads a Value, since a listed one holds it and an unlisted one reads 0. -/
theorem cell_inRange (h : s.Inv) (a : Nat) : inRange s.xlen (s.dm.get a) = true := by
  obtain ⟨-, -, hx, -, -, hcells, -⟩ := h
  rcases cellAt_listed_or_unlisted s.dm.cells a with hc | hc
  · exact hcells _ hc
  · rw [Memory.get, hc]
    exact inRange_of_le hx (by decide) (by decide)

theorem memRead_inRange (h : s.Inv) {a : Int} {v : Value} (hv : memRead s a = .ok v) : inRange s.xlen v = true := by
  rw [(memRead_ok_iff.mp hv).2]
  exact h.cell_inRange _

/-- What a move stores is a Value: a register's, a literal or a cell's. -/
theorem movedValue_inRange (h : s.Inv) {i : Instr} (hi : WellFormed i = true) {v : Value}
    (hv : movedValue i s = some v) : inRange s.xlen v = true := by
  cases i with
  | movRR a b => exact h.reg_inRange hv
  | movRI a l =>
    obtain ⟨-, -, hx, -⟩ := h
    simp only [WellFormed, isLit8, Bool.and_eq_true, decide_eq_true_eq] at hi
    cases hv
    exact inRange_of_le hx (Int.natCast_nonneg l) (Int.ofNat_le.mpr hi.2)
  | movRD a b => exact h.memRead_inRange (ok_of_toOption hv)
  | movRX a b =>
    obtain ⟨p, -, hp⟩ := bind_ok_iff.mp (ok_of_toOption hv)
    exact h.memRead_inRange hp
  | _ => cases hv

/-- R22: a register write of a Value keeps the invariant. -/
theorem setReg (h : s.Inv) (a : Nat) {v : Value} (hv : inRange s.xlen v = true) :
    { s with regs := s.regs.set a v }.Inv := by
  obtain ⟨h1, h16, hx, hregs, hwf, hcells, hst⟩ := h
  refine ⟨?_, ?_, hx, fun u hu => ?_, hwf, hcells, hst⟩
  · simpa [State.nregs] using h1
  · simpa [State.nregs] using h16
  · rcases List.mem_or_eq_of_mem_set hu with hu | rfl
    · exact hregs u hu
    · exact hv

/-- R22: a store of a Value to an existing cell keeps the invariant. -/
theorem putCell (h : s.Inv) {a : Nat} (ha : a < s.dm.size) {v : Value} (hv : inRange s.xlen v = true) :
    { s with dm := s.dm.put a v }.Inv := by
  obtain ⟨h1, h16, hx, hregs, hwf, hcells, hst⟩ := h
  refine ⟨h1, h16, hx, hregs, s.dm.wf_put hwf ha v, fun c hc => ?_, hst⟩
  rcases mem_putCell hc with rfl | hc
  · exact hv
  · exact hcells c hc

/-- R190: so does a change of the status to one a run can have. -/
theorem setStatus (h : s.Inv) {st : Status} (hst : statusLegal st = true) : { s with status := st }.Inv := by
  obtain ⟨h1, h16, hx, hregs, hwf, hcells, -⟩ := h
  exact ⟨h1, h16, hx, hregs, hwf, hcells, hst⟩

end State.Inv

/-- Every way an instruction can end keeps the invariant. -/
theorem Effect.inv {s t : State} {i : Instr} (h : Effect s i t) (hi : WellFormed i = true) (hs : s.Inv) : t.Inv := by
  cases h with
  | failure hf => exact hs.setStatus hf
  | move hw hv => exact hs.setReg _ (hs.movedValue_inRange hi hv)
  | exchange hv hu => exact (hs.setReg _ (hs.reg_inRange hu)).setReg _ (hs.reg_inRange hv)
  | store hv ha => exact hs.putCell ha (hs.reg_inRange hv)
  | arith _ _ _ hr => exact hs.setReg _ hr
  | compare | branch => exact hs

/-- Settles O46: the step halts, or executes the well-formed instruction it decoded, whose effect keeps the
invariant. -/
theorem stepKeepsTheInvariant : Obligations.StepKeepsTheInvariant := by
  intro s t hs h
  obtain ⟨-, rfl⟩ | ⟨w, i, -, -, hi, he⟩ := step_next_cases h
  · exact hs.setStatus rfl
  · exact (exec_effect he).inv hi hs

end Sys2Proof.Machine
end

section
/-! Proofs of the state family: the frames and step rules of spec/10_state.md (R12, R14, R20, R21). -/

namespace Sys2Proof.Machine

/-- Settles O30: each of the four moves writes register `a` alone, and is neither arithmetic nor a store. -/
theorem moveFrame : Obligations.MoveFrame := by
  intro a b i s t hi h
  have he := exec_effect h
  obtain ⟨hregs, hflags, hcells⟩ : registersWritten i = [a] ∧ isArithmetic i = false ∧ ∀ c d, i ≠ .movDR c d := by
    simp only [List.mem_cons, List.not_mem_nil, or_false] at hi
    rcases hi with rfl | rfl | rfl | rfl <;> exact ⟨rfl, rfl, by simp⟩
  exact ⟨fun r hr => he.regs_eq (by simp [hregs, hr]), he.sameFlags hflags, he.sameCells hcells, he.sameMachine⟩

/-- Settles O31: each form of ADD and SUB writes register `a` alone, and is no store. -/
theorem arithmeticFrame : Obligations.ArithmeticFrame := by
  intro a b i s t hi h
  have he := exec_effect h
  obtain ⟨hregs, hcells⟩ : registersWritten i = [a] ∧ ∀ c d, i ≠ .movDR c d := by
    simp only [List.mem_cons, List.not_mem_nil, or_false] at hi
    rcases hi with rfl | rfl | rfl | rfl <;> exact ⟨rfl, by simp⟩
  exact ⟨fun r hr => he.regs_eq (by simp [hregs, hr]), he.sameCells hcells, he.sameMachine⟩

/-- Settles O32: both forms of CMP write no register and are no store. -/
theorem compareFrame : Obligations.CompareFrame := by
  intro a b i s t hi h
  have he := exec_effect h
  obtain ⟨hregs, hcells⟩ : registersWritten i = [] ∧ ∀ c d, i ≠ .movDR c d := by
    simp only [List.mem_cons, List.not_mem_nil, or_false] at hi
    rcases hi with rfl | rfl <;> exact ⟨rfl, by simp⟩
  exact ⟨he.regs_eq_of_writes_none hregs, he.sameCells hcells, he.sameMachine⟩

/-- Settles O33: MOV_DR writes no register and is not arithmetic, and the cell it names is the one excepted. -/
theorem storeFrame : Obligations.StoreFrame := by
  intro a b s t h
  have he := exec_effect h
  refine ⟨he.regs_eq_of_writes_none rfl, he.sameFlags rfl, he.sameMachine, fun addr haddr => he.get_eq ?_⟩
  rintro c ⟨⟩
  exact haddr rfl

/-- Settles O34: XCHG writes registers `a` and `b` alone, and is neither arithmetic nor a store. -/
theorem exchangeFrame : Obligations.ExchangeFrame := by
  intro a b s t h
  have he := exec_effect h
  exact ⟨fun r ha hb => he.regs_eq (by simp [registersWritten, ha, hb]), he.sameFlags rfl, he.sameCells (by simp),
    he.sameMachine⟩

/-- Settles O49: a completing cycle begins below PROG_LEN and leads to the next index or to a literal; any other step
leaves pc. -/
theorem stepKeepsThePcBound : Obligations.StepKeepsThePcBound := by
  intro s t hs h
  obtain ⟨-, rfl⟩ | ⟨w, i, hf, -, hi, he⟩ := step_next_cases h
  · exact hs
  have hlt := fetch_some_lt hf
  have heff := exec_effect he
  obtain ⟨-, him, -, -⟩ := heff.sameMachine
  have hlen : t.progLen = s.progLen := congrArg List.length him
  rw [State.PcInv, hlen]
  rcases heff.pc_cases with hpc | hpc | hpc
  · rw [hpc]; exact hs
  · omega
  · have := takenTarget_le hi hpc
    omega

/-- Settles O50: the one instruction that stores names its cell by an address field, which holds at most 15. -/
theorem stepKeepsTheMachineAndHighCells : Obligations.StepKeepsTheMachineAndHighCells := by
  intro s t h
  obtain ⟨-, rfl⟩ | ⟨w, i, -, -, hi, he⟩ := step_next_cases h
  · exact ⟨⟨rfl, rfl, rfl, rfl⟩, fun _ _ => rfl⟩
  refine ⟨(exec_effect he).sameMachine, fun addr haddr => (exec_effect he).get_eq ?_⟩
  rintro b rfl
  simp only [WellFormed, isIdx4, Bool.and_eq_true, decide_eq_true_eq] at hi
  omega

/-- Settles O38: a terminal status stops by the definition of the step, and a running one halts, or executes the
instruction it decoded, which answers a next state even when it fails. -/
theorem terminalStatusStopsTheStep : Obligations.TerminalStatusStopsTheStep := by
  refine ⟨fun s hs => by rw [step, hs], fun s k hs => by rw [step, hs], fun s hs => ?_⟩
  cases hf : fetch s with
  | none => exact ⟨s.halt, step_of_fetch_none hs hf⟩
  | some w =>
    obtain ⟨i, hd, -⟩ := decode_wellFormed w
    rw [step_of_decode hs hf hd]
    exact exec_answers_next i s

end Sys2Proof.Machine
end

section
/-! Proofs of the state family: the state that construction gives (spec/10_state.md R25, R212). -/

namespace Sys2Proof.Machine

/-- R212: the inputs construction accepts, and the state it gives. -/
theorem construct_some_iff {p : Params} {s : State} :
    construct p = some s ↔ paramsValid p = true ∧ s = initialState p := by
  unfold construct
  split
  · next hp => simp [hp, eq_comm]
  · next hp => simp [hp]

theorem paramsValid_iff {p : Params} : paramsValid p = true ↔
    1 ≤ p.nregs ∧ p.nregs ≤ 16 ∧ xlenValid p.xlen = true ∧ (∀ v ∈ dmemInit p.dmem, inRange p.xlen v = true) ∧
      ∀ w ∈ p.prog, w < 2 ^ 32 := by
  simp only [paramsValid, Bool.and_eq_true, decide_eq_true_eq, List.all_eq_true, and_assoc]

@[simp] theorem initialState_nregs (p : Params) : (initialState p).nregs = p.nregs := List.length_replicate

@[simp] theorem initialState_dm_size (p : Params) : (initialState p).dm.size = dmemSize p.dmem :=
  Memory.fill_size _ _ _

/-- R8: the supplied contents fit the memory. -/
theorem dmemInit_length_le (d : DmemInput) : (dmemInit d).length ≤ dmemSize d := by
  cases d with
  | contents values => exact Nat.le_refl _
  | size n => exact Nat.zero_le n

theorem initialState_dm_wf (p : Params) : (initialState p).dm.wf = true :=
  Memory.wf_fill rfl (by simpa using dmemInit_length_le p.dmem)

/-- R8, R25: a cell holds the value supplied for it, or the zero fill. -/
theorem initialState_dm_get (p : Params) (a : Nat) :
    (initialState p).dm.get a = ((dmemInit p.dmem)[a]?).getD 0 := by
  have hlen : 0 + (dmemInit p.dmem).length ≤ dmemSize p.dmem := by simpa using dmemInit_length_le p.dmem
  exact (Memory.get_fill (m := ⟨dmemSize p.dmem, []⟩) rfl hlen a).trans (if_pos (Nat.zero_le a))

/-- R20: the program's numbers are words, so that the store holds them unchanged. -/
theorem initialState_im_toNat {p : Params} (h : ∀ w ∈ p.prog, w < 2 ^ 32) :
    (initialState p).im.map BitVec.toNat = p.prog := by
  have hid : ∀ w ∈ p.prog, (BitVec.toNat ∘ BitVec.ofNat 32) w = w := fun w hw =>
    (BitVec.toNat_ofNat w 32).trans (Nat.mod_eq_of_lt (h w hw))
  simp only [initialState, List.map_map]
  rw [List.map_congr_left hid, List.map_id']

theorem initialState_inv {p : Params} (h : paramsValid p = true) : (initialState p).Inv := by
  obtain ⟨h1, h16, hx, hinit, -⟩ := paramsValid_iff.mp h
  refine ⟨by simpa using h1, by simpa using h16, hx, fun v hv => ?_, initialState_dm_wf p, fun c hc => ?_, rfl⟩
  · rw [List.eq_of_mem_replicate hv]
    exact inRange_of_le hx (by decide) (by decide)
  · rcases Memory.mem_fill hc with hc | hc
    · cases hc
    · exact hinit _ hc

/-- Settles O48: valid parameters give a state that meets the invariant, and pc is 0. -/
theorem constructedMachinesMeetTheInvariant : Obligations.ConstructedMachinesMeetTheInvariant := by
  intro p s h
  obtain ⟨hp, rfl⟩ := construct_some_iff.mp h
  exact ⟨initialState_inv hp, Nat.zero_le _⟩

/-- Settles O47: the reset state is the initial state of the default parameters. -/
theorem resetMeetsTheInvariant : Obligations.ResetMeetsTheInvariant := by
  rw [Obligations.ResetMeetsTheInvariant, ← initialState_default]
  exact initialState_inv paramsValid_default

/-- Settles O51: each clause is the lemma on that field of the initial state; an empty program meets the halt test. -/
theorem constructionGivesTheResetValues : Obligations.ConstructionGivesTheResetValues := by
  intro p s h
  obtain ⟨hp, rfl⟩ := construct_some_iff.mp h
  obtain ⟨-, -, -, -, hprog⟩ := paramsValid_iff.mp hp
  refine ⟨initialState_nregs p, fun i hi => List.getElem?_replicate_of_lt hi, fun values hv => ⟨?_, fun a v ha => ?_⟩,
    fun n hn => ⟨?_, fun a _ => ?_⟩, rfl, rfl, rfl, initialState_im_toNat hprog, rfl, rfl, fun hnil => ?_⟩
  · rw [initialState_dm_size, hv, dmemSize]
  · rw [initialState_dm_get, hv, dmemInit, ha, Option.getD_some]
  · rw [initialState_dm_size, hn, dmemSize]
  · rw [initialState_dm_get, hn]
    rfl
  · have hf : fetch (initialState p) = none := by simp [fetch, initialState, hnil]
    exact step_of_fetch_none rfl hf

end Sys2Proof.Machine
end


section
/-! Laws of the memory family: the state a load or a store answers when its operands exist (R123 to R125). -/

namespace Sys2Proof.Machine

/-- An operation that answers hands its value to the rest of the instruction. -/
theorem finish_bind_of_ok {α : Type} {s : State} {x : Except Failure α} {v : α} (h : x = .ok v)
    (g : α → Except Failure State) : finish s (x >>= g) = finish s (g v) := by
  subst h
  rfl

theorem loadDirect_ok {s : State} {b : Nat} (hb : b < s.dm.size) : loadDirect s b = .ok (s.dm.get b) :=
  memRead_ok_iff.mpr ⟨⟨Int.natCast_nonneg b, Int.ofNat_lt.mpr hb⟩, rfl⟩

theorem loadIndirect_ok {s : State} {b : Nat} {p : Int} (hp : s.regs[b]? = some p) (h0 : 0 ≤ p)
    (hlt : p < (s.dm.size : Int)) : loadIndirect s b = .ok (s.dm.get p.toNat) :=
  bind_ok_iff.mpr ⟨p, readReg_ok_iff.mpr hp, memRead_ok_iff.mpr ⟨⟨h0, hlt⟩, rfl⟩⟩

theorem storeDirect_ok {s : State} {a : Nat} (ha : a < s.dm.size) (v : Value) :
    storeDirect s a v = .ok { s with dm := s.dm.put a v } :=
  memWrite_ok_iff.mpr ⟨⟨Int.natCast_nonneg a, Int.ofNat_lt.mpr ha⟩, rfl⟩

/-- The end of a move to a register that exists. -/
theorem finish_writeReg_advance {s : State} {a : Nat} (ha : a < s.nregs) (v : Value) :
    finish s (writeReg s a v >>= fun u => pure u.advance) =
      .next { s with regs := s.regs.set a v, pc := s.pc + 1 } :=
  finish_bind_of_ok (writeReg_ok_iff.mpr ⟨ha, rfl⟩) _

/-- R123. -/
theorem exec_movRD_next {s : State} {a b : Nat} (hb : b < s.dm.size) (ha : a < s.nregs) :
    exec (.movRD a b) s = .next { s with regs := s.regs.set a (s.dm.get b), pc := s.pc + 1 } :=
  (finish_bind_of_ok (loadDirect_ok hb) _).trans (finish_writeReg_advance ha _)

/-- R124. -/
theorem exec_movDR_next {s : State} {a b : Nat} {v : Value} (hv : s.regs[b]? = some v) (ha : a < s.dm.size) :
    exec (.movDR a b) s = .next { s with dm := s.dm.put a v, pc := s.pc + 1 } :=
  (finish_bind_of_ok (readReg_ok_iff.mpr hv) _).trans (finish_bind_of_ok (storeDirect_ok ha v) _)

/-- R125. -/
theorem exec_movRX_next {s : State} {a b : Nat} {p : Int} (hp : s.regs[b]? = some p) (h0 : 0 ≤ p)
    (hlt : p < (s.dm.size : Int)) (ha : a < s.nregs) :
    exec (.movRX a b) s = .next { s with regs := s.regs.set a (s.dm.get p.toNat), pc := s.pc + 1 } :=
  (finish_bind_of_ok (loadIndirect_ok hp h0 hlt) _).trans (finish_writeReg_advance ha _)

/-- R38: in canonical form a cell reads what was last written there. -/
theorem Memory.get_put_same {m : Memory} (w : m.wf = true) (a : Nat) (v : Value) : (m.put a v).get a = v :=
  (m.get_put w a a v).trans (if_pos rfl)

end Sys2Proof.Machine
end

section
/-! Proofs of the memory family: a load after a store (spec/20_memory.md R38, R41). -/

namespace Sys2Proof.Machine

/-- R41, direct: a load of an existing cell that reads `v` gives `v`. -/
theorem exec_movRD_of_get {s : State} {a c : Nat} {v : Value} (ha : a < s.dm.size) (hget : s.dm.get a = v)
    (hc : c < s.nregs) : exec (.movRD c a) s = .next { s with regs := s.regs.set c v, pc := s.pc + 1 } := by
  rw [exec_movRD_next ha hc, hget]

/-- R41, indirect: so does a load through a register that holds the cell's address. -/
theorem exec_movRX_of_get {s : State} {a c p : Nat} {v : Value} (ha : a < s.dm.size) (hget : s.dm.get a = v)
    (hp : s.regs[p]? = some (a : Int)) (hc : c < s.nregs) :
    exec (.movRX c p) s = .next { s with regs := s.regs.set c v, pc := s.pc + 1 } := by
  rw [exec_movRX_next hp (Int.natCast_nonneg a) (Int.ofNat_lt.mpr ha) hc, Int.toNat_natCast, hget]

/-- Settles O60: the store changes data memory and pc alone, so the cell and the registers the load needs still exist,
and the cell reads the value stored. -/
theorem loadAfterStoreGivesTheValue : Obligations.LoadAfterStoreGivesTheValue := by
  intro a b v s hwf hv ha
  have hget : (s.dm.put a v).get a = v := s.dm.get_put_same hwf a v
  exact ⟨_, exec_movDR_next hv ha, fun c hc => exec_movRD_of_get ha hget hc,
    fun c p hc hp => exec_movRX_of_get ha hget hp hc⟩

end Sys2Proof.Machine
end

section
/-! Laws of the encoding family: the decoder's selection, and `encode` as its right inverse (spec/30_encoding.md R55 to
R61, R71). -/

namespace Sys2Proof

/-- R56: an opcode above 15 is the dispatch's DecodeFailure. -/
theorem selectInstr_of_opcode_gt {f : Fields} (h : 15 < f.opcode) : selectInstr f = .error (.decode f.opcode) := by
  unfold selectInstr
  split
  case h_17 => rfl
  all_goals omega

/-- R58: the operation selected depends on the opcode and on the fields that the opcode uses. -/
theorem selectInstr_congr {f g : Fields} (hle : f.opcode ≤ 15) (hopc : f.opcode = g.opcode)
    (hrr : f.opcode ∈ [0, 2, 3, 4, 5, 7, 9, 14] → f.op1 = g.op1 ∧ f.op2 = g.op2)
    (hri : f.opcode ∈ [1, 6, 8, 10] → f.literal = g.literal ∧ f.op1 = g.op1)
    (hj : f.opcode ∈ [11, 12, 13, 15] → f.literal = g.literal) : selectInstr f = selectInstr g := by
  obtain ⟨opc, l, d, a, b⟩ := f
  obtain ⟨opc', l', d', a', b'⟩ := g
  dsimp only at hle hopc hrr hri hj
  subst hopc
  have hclass : opc ∈ [0, 2, 3, 4, 5, 7, 9, 14] ∨ opc ∈ [1, 6, 8, 10] ∨ opc ∈ [11, 12, 13, 15] := by
    interval_cases opc <;> decide
  rcases hclass with hopc | hopc | hopc
  · obtain ⟨rfl, rfl⟩ := hrr hopc
    fin_cases hopc <;> rfl
  · obtain ⟨rfl, rfl⟩ := hri hopc
    fin_cases hopc <;> rfl
  · obtain rfl := hj hopc
    fin_cases hopc <;> rfl

/-- The fields of an instruction's word select the instruction. -/
theorem selectInstr_fieldsOf (i : Instr) : selectInstr (fieldsOf i) = .ok i := by cases i <;> rfl

/-- R61: the word of a well-formed instruction holds the instruction's fields. -/
theorem decodeFields_encode {i : Instr} (h : WellFormed i = true) : decodeFields (encode i) = fieldsOf i := by
  obtain ⟨ho, hl, hd, ha, hb⟩ := fieldsOf_le h
  exact decodeFields_pack ho hl hd ha hb

theorem decode_encode {i : Instr} (h : WellFormed i = true) : decode (encode i) = .ok i := by
  rw [decode, decodeFields_encode h, selectInstr_fieldsOf]

/-- What a word decodes to is well formed. -/
theorem wellFormed_of_decode {w : Word} {i : Instr} (h : decode w = .ok i) : WellFormed i = true := by
  obtain ⟨j, hj, hwf⟩ := decode_wellFormed w
  cases h.symm.trans hj
  exact hwf

/-- R70: no instruction's word is above `0xF00FFFFF`. -/
theorem encode_toNat_le {i : Instr} (h : WellFormed i = true) : (encode i).toNat ≤ 0xF00FFFFF := by
  obtain ⟨ho, hl, hd, ha, hb⟩ := fieldsOf_le h
  exact (BitVec.toNat_ofNat _ 32).trans_le ((Nat.mod_le _ _).trans (pack_le ho hl hd ha hb))

/-- The part of R71 that speaks of the five fields. -/
def canonicalFields (f : Fields) : Bool :=
  if f.opcode ∈ [0, 2, 3, 4, 5, 7, 9, 14] then f.literal == 0 && f.dest == f.op1
  else if f.opcode ∈ [1, 6, 8, 10] then f.op2 == 0 && f.dest == f.op1
  else f.dest == 0 && f.op1 == 0 && f.op2 == 0

theorem canonical_iff {w : Word} :
    canonical w = true ↔ bits w 27 20 = 0 ∧ canonicalFields (decodeFields w) = true := by
  have h : canonical w = (bits w 27 20 == 0 && canonicalFields (decodeFields w)) := rfl
  rw [h, Bool.and_eq_true, beq_iff_eq]

theorem canonicalFields_fieldsOf (i : Instr) : canonicalFields (fieldsOf i) = true := by
  cases i <;> simp [canonicalFields, fieldsOf, opcodeOf]

/-- R71: canonical fields are those of the instruction they select. -/
theorem fieldsOf_of_selectInstr {f : Fields} {i : Instr} (hs : selectInstr f = .ok i)
    (hc : canonicalFields f = true) : fieldsOf i = f := by
  obtain ⟨opc, l, d, a, b⟩ := f
  unfold selectInstr at hs
  split at hs <;> cases hs <;> simp_all [canonicalFields, fieldsOf, opcodeOf]

/-- R71: a word is canonical exactly when it is the word of the instruction it decodes to. -/
theorem canonical_iff_encode_eq {w : Word} {i : Instr} (h : decode w = .ok i) : canonical w = true ↔ encode i = w := by
  rw [canonical_iff]
  constructor
  · rintro ⟨hunused, hc⟩
    have hn := toNat_eq_fields w
    rw [hunused, Nat.zero_mul, Nat.add_zero, ← fieldsOf_of_selectInstr h hc] at hn
    rw [encode, ← hn, BitVec.ofNat_toNat, BitVec.setWidth_eq]
  · rintro rfl
    have hi := wellFormed_of_decode h
    rw [decodeFields_encode hi]
    exact ⟨unused_encode hi, canonicalFields_fieldsOf i⟩

theorem canonical_encode {i : Instr} (h : WellFormed i = true) : canonical (encode i) = true :=
  (canonical_iff_encode_eq (decode_encode h)).mpr rfl

end Sys2Proof
end

section
/-! Laws of the encoding family: the encoder's answers in the order of its tests, and the accepted sources as the
assembler forms of the well-formed instructions (spec/30_encoding.md R59 to R72). -/

namespace Sys2Proof.Machine

/-! The answers of the encoder (R62, R70). -/

/-- An operation that answers hands its value to the rest of the sequence. -/
theorem bind_of_ok {α β : Type} {x : Except Failure α} {v : α} (h : x = .ok v) (g : α → Except Failure β) :
    (x >>= g) = g v := by
  subst h
  rfl

/-- An operation that raises ends the sequence. -/
theorem bind_of_error {α β : Type} {x : Except Failure α} {f : Failure} (h : x = .error f)
    (g : α → Except Failure β) : (x >>= g) = .error f := by
  subst h
  rfl

/-- R62: the largest value of the second operand of an accepted pair. -/
theorem fieldMax_second {mn : Mnemonic} {k1 k2 : OperandKind} {opc : Nat} (h : selectOpcode mn k1 k2 = .ok opc) :
    (fieldMax k2 : Int) = if k2 = .lit then 255 else 15 := by
  obtain ⟨-, -, hk2⟩ := selectOpcode_bounds h
  rw [hk2]
  exact Nat.cast_ite ..

theorem fieldMax_first {mn : Mnemonic} {k1 k2 : OperandKind} {opc : Nat} (h : selectOpcode mn k1 k2 = .ok opc) :
    (fieldMax k1 : Int) = 15 := by
  obtain ⟨-, hk1, -⟩ := selectOpcode_bounds h
  rw [hk1]
  rfl

section
variable {mn : Mnemonic} {o1 o2 : Operand}

/-- R70, first test: a refused pair of kinds. -/
theorem encodeOperands_of_select_error {f : Failure} (h : selectOpcode mn o1.kind o2.kind = .error f) :
    encodeOperands mn o1 o2 = .error f :=
  bind_of_error h _

/-- R70, second test: the first operand's range. -/
theorem encodeOperands_of_first_out {opc : Nat} (h : selectOpcode mn o1.kind o2.kind = .ok opc)
    (h1 : o1.value < 0 ∨ 15 < o1.value) : encodeOperands mn o1 o2 = .error (.range o1.value) :=
  (bind_of_ok h _).trans (bind_of_error (checkRange_error_iff.mpr ⟨by rwa [fieldMax_first h], rfl⟩) _)

theorem checkRange_first {opc : Nat} (h : selectOpcode mn o1.kind o2.kind = .ok opc) (h0 : 0 ≤ o1.value)
    (h15 : o1.value ≤ 15) : checkRange o1 = .ok o1.value.toNat :=
  checkRange_ok_iff.mpr ⟨h0, by rwa [fieldMax_first h], rfl⟩

/-- R70, third test: the second operand's range. -/
theorem encodeOperands_of_second_out {opc : Nat} (h : selectOpcode mn o1.kind o2.kind = .ok opc) (h0 : 0 ≤ o1.value)
    (h15 : o1.value ≤ 15) (h2 : o2.value < 0 ∨ (if o2.kind = .lit then 255 else 15) < o2.value) :
    encodeOperands mn o1 o2 = .error (.range o2.value) :=
  (bind_of_ok h _).trans ((bind_of_ok (checkRange_first h h0 h15) _).trans
    (bind_of_error (checkRange_error_iff.mpr ⟨by rwa [fieldMax_second h], rfl⟩) _))

/-- R61: operands that fit their fields are packed. -/
theorem encodeOperands_of_fits {opc : Nat} (h : selectOpcode mn o1.kind o2.kind = .ok opc) (h0 : 0 ≤ o1.value)
    (h15 : o1.value ≤ 15) (h0' : 0 ≤ o2.value) (hmax : o2.value ≤ if o2.kind = .lit then 255 else 15) :
    encodeOperands mn o1 o2 = .ok (BitVec.ofNat 32 (if o2.kind = .lit
      then pack opc o2.value.toNat o1.value.toNat o1.value.toNat 0
      else pack opc 0 o1.value.toNat o1.value.toNat o2.value.toNat)) :=
  encodeOperands_ok_iff.mpr ⟨opc, _, _, h, checkRange_first h h0 h15,
    checkRange_ok_iff.mpr ⟨h0', by rwa [fieldMax_second h], rfl⟩, rfl⟩

end

/-- R69, R62, D14: the encoder refuses with UsageFailure or with a RangeFailure. -/
theorem encodeOperands_error {mn : Mnemonic} {o1 o2 : Operand} {f : Failure} (h : encodeOperands mn o1 o2 = .error f) :
    f = .usage ∨ ∃ v, f = .range v := by
  cases hs : selectOpcode mn o1.kind o2.kind with
  | error g =>
    rw [encodeOperands_of_select_error hs] at h
    cases h
    exact .inl (selectOpcode_error hs)
  | ok opc =>
    by_cases h1 : 0 ≤ o1.value ∧ o1.value ≤ 15
    · by_cases h2 : 0 ≤ o2.value ∧ o2.value ≤ if o2.kind = .lit then 255 else 15
      · rw [encodeOperands_of_fits hs h1.1 h1.2 h2.1 h2.2] at h
        cases h
      · rw [encodeOperands_of_second_out hs h1.1 h1.2 (by omega)] at h
        cases h
        exact .inr ⟨_, rfl⟩
    · rw [encodeOperands_of_first_out hs (by omega)] at h
      cases h
      exact .inr ⟨_, rfl⟩

/-- R68: a target outside the literal field. -/
theorem encodeJump_of_out {k : JumpKind} {t : Int} (h : t < 0 ∨ 255 < t) : encodeJump k t = .error (.range t) :=
  bind_of_error (checkRange_error_iff.mpr ⟨h, rfl⟩) _

theorem encodeJump_of_fits {k : JumpKind} {t : Int} (h0 : 0 ≤ t) (h255 : t ≤ 255) :
    encodeJump k t = .ok (BitVec.ofNat 32 (pack (jumpOpcode k) t.toNat 0 0 0)) :=
  encodeJump_ok_iff.mpr ⟨h0, h255, rfl⟩

/-- R70: WidthFailure is none of the encoder's answers. -/
theorem encodeSource_error {x : Source} {f : Failure} (h : encodeSource x = .error f) :
    f = .usage ∨ ∃ v, f = .range v := by
  cases x with
  | operands mn o1 o2 => exact encodeOperands_error h
  | jump k t =>
    rw [encodeSource] at h
    by_cases ht : 0 ≤ t ∧ t ≤ 255
    · rw [encodeJump_of_fits ht.1 ht.2] at h
      cases h
    · rw [encodeJump_of_out (by omega)] at h
      cases h
      exact .inr ⟨_, rfl⟩

/-! The words of the accepted pairs, for operands given as natural numbers (R61, R63 to R67). -/

theorem encodeOperands_literal {mn : Mnemonic} {k1 : OperandKind} {opc a l : Nat}
    (h : selectOpcode mn k1 .lit = .ok opc) (ha : a ≤ 15) (hl : l ≤ 255) :
    encodeOperands mn ⟨k1, a⟩ ⟨.lit, l⟩ = .ok (BitVec.ofNat 32 (pack opc l a a 0)) :=
  encodeOperands_of_fits (o1 := ⟨k1, a⟩) (o2 := ⟨.lit, l⟩) h (Int.natCast_nonneg a) (Int.ofNat_le.mpr ha)
    (Int.natCast_nonneg l) (Int.ofNat_le.mpr hl)

theorem encodeOperands_address {mn : Mnemonic} {k1 k2 : OperandKind} {opc a b : Nat}
    (h : selectOpcode mn k1 k2 = .ok opc) (hk : k2 ≠ .lit) (ha : a ≤ 15) (hb : b ≤ 15) :
    encodeOperands mn ⟨k1, a⟩ ⟨k2, b⟩ = .ok (BitVec.ofNat 32 (pack opc 0 a a b)) := by
  have he := encodeOperands_of_fits (o1 := ⟨k1, a⟩) (o2 := ⟨k2, b⟩) h (Int.natCast_nonneg a) (Int.ofNat_le.mpr ha)
    (Int.natCast_nonneg b) (by rw [if_neg hk]; exact Int.ofNat_le.mpr hb)
  simpa only [if_neg hk, Int.toNat_natCast] using he

/-! The fields of an accepted word (R61, R72). -/

theorem decodeFields_encodeOperands {mn : Mnemonic} {o1 o2 : Operand} {w : Word}
    (h : encodeOperands mn o1 o2 = .ok w) : ∃ opc a v : Nat, selectOpcode mn o1.kind o2.kind = .ok opc ∧
      (a : Int) = o1.value ∧ (v : Int) = o2.value ∧
      decodeFields w = if o2.kind = .lit then ⟨opc, v, a, a, 0⟩ else ⟨opc, 0, a, a, v⟩ := by
  obtain ⟨opc, a, v, hs, ha, hv, rfl⟩ := encodeOperands_ok_iff.mp h
  obtain ⟨hopc, hk1, hk2⟩ := selectOpcode_bounds hs
  obtain ⟨h0, h15, rfl⟩ := checkRange_ok_iff.mp ha
  obtain ⟨h0', hmax, rfl⟩ := checkRange_ok_iff.mp hv
  refine ⟨opc, _, _, hs, Int.toNat_of_nonneg h0, Int.toNat_of_nonneg h0', ?_⟩
  by_cases hk : o2.kind = .lit
  · rw [if_pos hk] at hk2
    rw [if_pos hk, if_pos hk]
    exact decodeFields_pack hopc (by omega) (by omega) (by omega) (by omega)
  · rw [if_neg hk] at hk2
    rw [if_neg hk, if_neg hk]
    exact decodeFields_pack hopc (by omega) (by omega) (by omega) (by omega)

theorem decodeFields_encodeJump {k : JumpKind} {t : Int} {w : Word} (h : encodeJump k t = .ok w) :
    ∃ l : Nat, (l : Int) = t ∧ decodeFields w = ⟨jumpOpcode k, l, 0, 0, 0⟩ := by
  obtain ⟨h0, h255, rfl⟩ := encodeJump_ok_iff.mp h
  exact ⟨_, Int.toNat_of_nonneg h0, decodeFields_pack (jumpOpcode_le k) (by omega) (Nat.zero_le _) (Nat.zero_le _)
    (Nat.zero_le _)⟩

/-! The encoder accepts exactly the assembler forms of the well-formed instructions (R72, R75). -/

theorem encodeSource_sourceOf {i : Instr} (h : WellFormed i = true) :
    encodeSource (sourceOf i) = .ok (encode i) := by
  cases i with
  | js l | jns l | jne l | je l =>
    simp only [WellFormed, isLit8, decide_eq_true_eq] at h
    exact encodeJump_of_fits (Int.natCast_nonneg l) (Int.ofNat_le.mpr h)
  | movRI a l | addRI a l | subRI a l | cmpRI a l =>
    simp only [WellFormed, isIdx4, isLit8, Bool.and_eq_true, decide_eq_true_eq] at h
    exact encodeOperands_literal rfl h.1 h.2
  | _ a b =>
    simp only [WellFormed, isIdx4, Bool.and_eq_true, decide_eq_true_eq] at h
    exact encodeOperands_address rfl (by decide) h.1 h.2

/-- R72: an accepted word decodes to the instruction whose assembler form the encoder was given. -/
theorem sourceOf_of_encodeSource {x : Source} {w : Word} {i : Instr} (h : encodeSource x = .ok w)
    (hd : decode w = .ok i) : sourceOf i = x := by
  cases x with
  | operands mn o1 o2 =>
    obtain ⟨opc, a, v, hs, ha, hv, hf⟩ := decodeFields_encodeOperands h
    obtain ⟨k1, p⟩ := o1
    obtain ⟨k2, q⟩ := o2
    dsimp only at hs ha hv hf
    subst ha hv
    rw [decode, hf] at hd
    have hc := selectOpcode_cases hs
    simp only [List.mem_cons, List.not_mem_nil, or_false, Prod.mk.injEq] at hc
    rcases hc with ⟨rfl, rfl, rfl, rfl⟩ | ⟨rfl, rfl, rfl, rfl⟩ | ⟨rfl, rfl, rfl, rfl⟩ | ⟨rfl, rfl, rfl, rfl⟩ |
      ⟨rfl, rfl, rfl, rfl⟩ | ⟨rfl, rfl, rfl, rfl⟩ | ⟨rfl, rfl, rfl, rfl⟩ | ⟨rfl, rfl, rfl, rfl⟩ |
      ⟨rfl, rfl, rfl, rfl⟩ | ⟨rfl, rfl, rfl, rfl⟩ | ⟨rfl, rfl, rfl, rfl⟩ | ⟨rfl, rfl, rfl, rfl⟩ <;>
      (cases hd; rfl)
  | jump k t =>
    obtain ⟨l, rfl, hf⟩ := decodeFields_encodeJump h
    rw [decode, hf] at hd
    cases k <;> (cases hd; rfl)

/-- R72: what the encoder accepts, and the word it gives. -/
theorem encodeSource_ok_iff {x : Source} {w : Word} :
    encodeSource x = .ok w ↔ ∃ i, WellFormed i = true ∧ sourceOf i = x ∧ encode i = w := by
  constructor
  · intro h
    obtain ⟨i, hd, hi⟩ := decode_wellFormed w
    have hx := sourceOf_of_encodeSource h hd
    refine ⟨i, hi, hx, Except.ok.inj ((encodeSource_sourceOf hi).symm.trans ?_)⟩
    rw [hx, h]
  · rintro ⟨i, hi, rfl, rfl⟩
    exact encodeSource_sourceOf hi

/-- R72: the word determines what the encoder was given. -/
theorem encodeSource_injective {x y : Source} {w : Word} (hx : encodeSource x = .ok w) (hy : encodeSource y = .ok w) :
    x = y := by
  obtain ⟨i, hd, -⟩ := decode_wellFormed w
  exact (sourceOf_of_encodeSource hx hd).symm.trans (sourceOf_of_encodeSource hy hd)

theorem canonical_of_encodeSource {x : Source} {w : Word} (h : encodeSource x = .ok w) : canonical w = true := by
  obtain ⟨i, hi, -, rfl⟩ := encodeSource_ok_iff.mp h
  exact canonical_encode hi

/-- R72: the opcode determines the mnemonic and the pair of kinds, since operands of 0 give words that differ in the
opcode alone. -/
theorem selectOpcode_injective {mn mn' : Mnemonic} {k1 k2 k1' k2' : OperandKind} {opc : Nat}
    (h : selectOpcode mn k1 k2 = .ok opc) (h' : selectOpcode mn' k1' k2' = .ok opc) :
    mn = mn' ∧ k1 = k1' ∧ k2 = k2' := by
  have hw : ∀ {m p q}, selectOpcode m p q = .ok opc →
      encodeSource (.operands m ⟨p, 0⟩ ⟨q, 0⟩) = .ok (BitVec.ofNat 32 (pack opc 0 0 0 0)) := by
    intro m p q hs
    by_cases hq : q = .lit
    · subst hq
      exact encodeOperands_literal hs (Nat.zero_le _) (Nat.zero_le _)
    · exact encodeOperands_address hs hq (Nat.zero_le _) (Nat.zero_le _)
  cases encodeSource_injective (hw h) (hw h')
  exact ⟨rfl, rfl, rfl⟩

end Sys2Proof.Machine
end

section
/-! Proofs of the encoding family: the decoder and the encoder (spec/30_encoding.md R51 to R72). -/

namespace Sys2Proof.Machine

/-- Settles O1: the decoder evaluates each of the eight words. -/
theorem specWordsDecode : Obligations.SpecWordsDecode :=
  ⟨rfl, rfl, rfl, rfl, rfl, rfl, rfl, rfl⟩

/-- Settles O2: the word holds the instruction's own fields, and they select the instruction. -/
theorem decodeOfEncodeIsIdentity : Obligations.DecodeOfEncodeIsIdentity :=
  fun _ hi => decode_encode hi

/-- Settles O4: the four bits of the opcode bound it, and the fields of every word select an operation. -/
theorem everyWordDecodes : Obligations.EveryWordDecodes :=
  ⟨opcode_le, decode_wellFormed, fun _ hf => selectInstr_of_opcode_gt hf⟩

/-- Settles O5: the words' fields agree where the selection looks. -/
theorem unusedBitsAreIgnored : Obligations.UnusedBitsAreIgnored :=
  fun w _ hopc hrr hri hj => selectInstr_congr (opcode_le w) hopc hrr hri hj

/-- Settles O6: a canonical word is the word of the instruction it decodes to, whose assembler form the encoder
accepts; and every accepted word is an instruction's. -/
theorem canonicalWordsAreTheEncodersOutput : Obligations.CanonicalWordsAreTheEncodersOutput := by
  refine fun w => ⟨fun h => ?_, fun ⟨x, hx⟩ => canonical_of_encodeSource hx⟩
  obtain ⟨i, hd, hi⟩ := decode_wellFormed w
  exact ⟨sourceOf i, encodeSource_ok_iff.mpr ⟨i, hi, rfl, (canonical_iff_encode_eq hd).mp h⟩⟩

/-- The first clause of R72: the decoder reads the opcode, the operands and the literal that the encoder was given. -/
theorem fields_of_encodeOperands {mn : Mnemonic} {k1 k2 : OperandKind} {opc : Nat} {a v : Int} {w : Word}
    (hs : selectOpcode mn k1 k2 = .ok opc) (h : encodeOperands mn ⟨k1, a⟩ ⟨k2, v⟩ = .ok w) :
    (decodeFields w).opcode = opc ∧ ((decodeFields w).op1 : Int) = a ∧
      (k2 ≠ .lit → ((decodeFields w).op2 : Int) = v) ∧ (k2 = .lit → ((decodeFields w).literal : Int) = v) := by
  obtain ⟨opc', a', v', hs', ha, hv, hf⟩ := decodeFields_encodeOperands h
  cases hs.symm.trans hs'
  by_cases hk : k2 = .lit
  · rw [if_pos hk] at hf
    rw [hf]
    exact ⟨rfl, ha, fun hne => absurd hk hne, fun _ => hv⟩
  · rw [if_neg hk] at hf
    rw [hf]
    exact ⟨rfl, ha, fun _ => hv, fun he => absurd he hk⟩

/-- Settles O3: the accepted sources are the assembler forms of the well-formed instructions, and a form's word is the
instruction's canonical word. -/
theorem encoderRoundTrips : Obligations.EncoderRoundTrips := by
  refine ⟨fun mn k1 k2 opc a v w hs h => fields_of_encodeOperands hs h, fun k t w h => ?_, fun w i hw hd => ?_,
    fun w i hd => ?_, fun mn k1 k2 mn' k1' k2' opc h h' => selectOpcode_injective h h'⟩
  · obtain ⟨l, hl, hf⟩ := decodeFields_encodeJump h
    rw [hf]
    exact ⟨rfl, hl⟩
  · exact encodeSource_ok_iff.mpr ⟨i, wellFormed_of_decode hd, rfl, (canonical_iff_encode_eq hd).mp hw⟩
  · have hi := wellFormed_of_decode hd
    exact ⟨encode i, encodeSource_sourceOf hi, canonical_encode hi, decode_encode hi⟩

/-- Settles O7: one lemma per test of the encoder, for an accepted pair of kinds. -/
theorem encoderRefusesOutOfRange : Obligations.EncoderRefusesOutOfRange :=
  ⟨fun _ _ _ _ hs => ⟨encodeOperands_of_first_out hs, encodeOperands_of_second_out hs,
    fun h0 h15 h0' hmax => ⟨_, encodeOperands_of_fits hs h0 h15 h0' hmax⟩⟩,
    fun _ _ => ⟨encodeJump_of_out, fun h0 h255 => ⟨_, encodeJump_of_fits h0 h255⟩⟩⟩

/-- R69: a pair of kinds that is none of the twelve is refused. -/
theorem selectOpcode_of_not_listed {mn : Mnemonic} {k1 k2 : OperandKind}
    (h : (mn, k1, k2) ∉ [(Mnemonic.mov, OperandKind.reg, OperandKind.reg), (.mov, .reg, .lit), (.mov, .reg, .dat),
      (.mov, .dat, .reg), (.mov, .reg, .ind), (.xchg, .reg, .reg), (.add, .reg, .reg), (.add, .reg, .lit),
      (.sub, .reg, .reg), (.sub, .reg, .lit), (.cmp, .reg, .reg), (.cmp, .reg, .lit)]) :
    selectOpcode mn k1 k2 = .error .usage := by
  cases hs : selectOpcode mn k1 k2 with
  | error f => rw [selectOpcode_error hs]
  | ok opc => exact absurd (List.mem_map_of_mem (f := fun q => (q.1, q.2.1, q.2.2.1)) (selectOpcode_cases hs)) h

/-- Settles O8: the pairs listed select their opcodes, and operands in range are packed; the others are refused before
any range. -/
theorem encoderAcceptsTheListedPairs : Obligations.EncoderAcceptsTheListedPairs := by
  refine ⟨fun a b ha hb => ?_, fun a v ha hv => ?_,
    fun mn o1 o2 h => encodeOperands_of_select_error (selectOpcode_of_not_listed h)⟩
  · have address : ∀ {mn k1 k2 opc}, selectOpcode mn k1 k2 = .ok opc → k2 ≠ .lit →
        encodeOperands mn ⟨k1, a⟩ ⟨k2, b⟩ = .ok (BitVec.ofNat 32 (pack opc 0 a a b)) :=
      fun hs hk => encodeOperands_address hs hk ha hb
    exact ⟨address rfl (by decide), address rfl (by decide), address rfl (by decide), address rfl (by decide),
      address rfl (by decide), address rfl (by decide), address rfl (by decide), address rfl (by decide)⟩
  · exact ⟨encodeOperands_literal rfl ha hv, encodeOperands_literal rfl ha hv, encodeOperands_literal rfl ha hv,
      encodeOperands_literal rfl ha hv⟩

/-- Settles O9: an accepted word is an instruction's, and each refusal is one of the tests before the width. -/
theorem widthFailureIsNeverRaised : Obligations.WidthFailureIsNeverRaised := by
  refine ⟨fun x w h => ?_, fun x n h => ?_, fun _ _ _ _ hs => encodeOperands_of_select_error hs,
    fun _ _ _ _ hs h1 => encodeOperands_of_first_out hs h1⟩
  · obtain ⟨i, hi, -, rfl⟩ := encodeSource_ok_iff.mp h
    exact encode_toNat_le hi
  · rcases encodeSource_error h with hf | ⟨v, hf⟩ <;> cases hf

end Sys2Proof.Machine
end

section
/-! Laws of the encoding family: the expansion of `set` and the execution of its words (spec/30_encoding.md R92,
R93). -/

namespace Sys2Proof.Machine

/-! The lines of the expansion. -/

theorem length_setStores (k : Nat) (values : List Int) : (setStores k values).length = 2 * values.length := by
  induction values generalizing k with
  | nil => rfl
  | cons v rest ih => simp only [setStores, List.length_cons, ih]; omega

/-- The lines of value `i` stand at `2i` and `2i + 1`. -/
theorem getElem?_setStores {values : List Int} {i : Nat} {v : Int} (h : values[i]? = some v) (k : Nat) :
    (setStores k values)[2 * i]? = some (.operands .mov ⟨.reg, 0⟩ ⟨.lit, v⟩) ∧
      (setStores k values)[2 * i + 1]? = some (.operands .mov ⟨.dat, (k + i : Nat)⟩ ⟨.reg, 0⟩) := by
  induction values generalizing i k with
  | nil => cases h
  | cons u rest ih =>
    cases i with
    | zero =>
      cases h
      exact ⟨rfl, rfl⟩
    | succ i =>
      obtain ⟨hload, hstore⟩ := ih h (k + 1)
      rw [Nat.add_right_comm k 1 i] at hstore
      exact ⟨hload, hstore⟩

/-- The line `mov r0, 0` that ends the expansion. -/
def clearScratch : Source := .operands .mov ⟨.reg, Config.scratch⟩ ⟨.lit, 0⟩

theorem setExpansion_of_count (values : List Int) :
    setExpansion ((values.length : Int) :: values) = .ok (setStores 0 values ++ [clearScratch]) :=
  if_pos rfl

theorem setExpansion_of_wrong_count {c : Int} {values : List Int} (h : c ≠ (values.length : Int)) :
    setExpansion (c :: values) = .error .malformed :=
  if_neg h

/-! The words of the expansion. -/

theorem encodeAll_cons_ok_iff {x : Source} {xs : List Source} {ws : List Word} :
    encodeAll (x :: xs) = .ok ws ↔ ∃ w us, encodeSource x = .ok w ∧ encodeAll xs = .ok us ∧ ws = w :: us := by
  simp only [encodeAll, bind_ok_iff]
  constructor
  · rintro ⟨w, hw, us, hus, h⟩
    cases h
    exact ⟨w, us, hw, hus, rfl⟩
  · rintro ⟨w, us, hw, hus, rfl⟩
    exact ⟨w, hw, us, hus, rfl⟩

/-- R64: the word of `mov r<a>, <v>`. -/
theorem decode_mov_literal {a : Nat} {v : Int} {w : Word}
    (h : encodeSource (.operands .mov ⟨.reg, a⟩ ⟨.lit, v⟩) = .ok w) :
    ∃ l : Nat, (l : Int) = v ∧ decode w = .ok (.movRI a l) := by
  obtain ⟨i, hd, -⟩ := decode_wellFormed w
  have hx := sourceOf_of_encodeSource h hd
  cases i with
  | movRI c l =>
    injection hx with _ h1 h2
    injection h1 with _ hc
    injection h2 with _ hl
    exact ⟨l, hl, by rw [hd, Int.ofNat_inj.mp hc]⟩
  | _ => cases hx

/-- R64: the word of `mov d<a>, r<b>`. -/
theorem decode_mov_cell {a b : Nat} {w : Word} (h : encodeSource (.operands .mov ⟨.dat, a⟩ ⟨.reg, b⟩) = .ok w) :
    decode w = .ok (.movDR a b) := by
  obtain ⟨i, hd, -⟩ := decode_wellFormed w
  have hx := sourceOf_of_encodeSource h hd
  cases i with
  | movDR c d =>
    injection hx with _ h1 h2
    injection h1 with _ hc
    injection h2 with _ hd'
    rw [hd, Int.ofNat_inj.mp hc, Int.ofNat_inj.mp hd']
  | _ => cases hx

/-! Their execution. -/

theorem exec_movRI_next {s : State} {a : Nat} (ha : a < s.nregs) (l : Nat) :
    exec (.movRI a l) s = .next { s with regs := s.regs.set a (l : Int), pc := s.pc + 1 } :=
  finish_writeReg_advance ha _

theorem execWords_cons {w : Word} {i : Instr} {s t : State} (hd : decode w = .ok i) (he : exec i s = .next t)
    (ws : List Word) : execWords (w :: ws) s = execWords ws t := by
  simp only [execWords, hd, he]

/-- R92: each pair of words fills the next cell through the scratch register, and the last word clears it. -/
theorem execWords_setStores {values : List Int} {k : Nat} {ws : List Word} {s : State}
    (h : encodeAll (setStores k values ++ [clearScratch]) = .ok ws) (hr : 0 < s.nregs)
    (hm : k + values.length ≤ s.dm.size) :
    execWords ws s = some { s with
      regs := s.regs.set 0 0, dm := s.dm.fill k values, pc := s.pc + (2 * values.length + 1) } := by
  induction values generalizing k ws s with
  | nil =>
    obtain ⟨w, us, hw, hus, rfl⟩ := encodeAll_cons_ok_iff.mp h
    obtain ⟨l, hl, hd⟩ := decode_mov_literal hw
    cases hus
    rw [execWords_cons hd (exec_movRI_next hr l), hl]
    rfl
  | cons v rest ih =>
    obtain ⟨w1, us1, hw1, h1, rfl⟩ := encodeAll_cons_ok_iff.mp h
    obtain ⟨w2, us2, hw2, h2, rfl⟩ := encodeAll_cons_ok_iff.mp h1
    obtain ⟨l, rfl, hd1⟩ := decode_mov_literal hw1
    have hd2 := decode_mov_cell hw2
    rw [List.length_cons] at hm
    rw [execWords_cons hd1 (exec_movRI_next hr l),
      execWords_cons hd2 (exec_movDR_next (v := (l : Int)) (List.getElem?_set_self hr) (by dsimp only; omega)),
      ih h2 (by simpa [State.nregs] using hr) (by dsimp only [Memory.put_size]; omega)]
    have hpc : s.pc + 1 + 1 + (2 * rest.length + 1) = s.pc + (2 * (rest.length + 1) + 1) := by omega
    simp only [List.set_set, Memory.fill, List.length_cons, hpc]

end Sys2Proof.Machine
end

section
/-! Laws of the encoding family: pass two, and what pass one gives it (spec/30_encoding.md R85 to R89). -/

namespace Sys2Proof.Machine

/-! Pass two (R88). -/

theorem resolveSlot_resolved (labels : List (Text × Nat)) (w : Word) : resolveSlot labels (.resolved w) = .ok w := rfl

theorem resolveSlot_unbound {labels : List (Text × Nat)} {label : Text} (h : lookupLabel label labels = none)
    (k : JumpKind) : resolveSlot labels (.pendingJump k label) = .error (.resolution label) := by
  rw [resolveSlot, h]

theorem resolveSlot_bound {labels : List (Text × Nat)} {label : Text} {n : Nat}
    (h : lookupLabel label labels = some n) (k : JumpKind) :
    resolveSlot labels (.pendingJump k label) = encodeJump k (n : Int) := by
  rw [resolveSlot, h]

/-- A placeholder is resolved when its label is bound to an index that a jump can hold. -/
theorem resolveSlot_pendingJump_ok_iff {labels : List (Text × Nat)} {k : JumpKind} {label : Text} {w : Word} :
    resolveSlot labels (.pendingJump k label) = .ok w ↔
      ∃ n, lookupLabel label labels = some n ∧ encodeJump k (n : Int) = .ok w := by
  cases hl : lookupLabel label labels with
  | none => simp [resolveSlot_unbound hl]
  | some n => simp [resolveSlot_bound hl]

/-- Pass two answers the slots' words, one by one. -/
theorem passTwo_ok_iff {labels : List (Text × Nat)} {out : List Slot} {ws : List Word} :
    passTwo labels out = .ok ws ↔ List.Forall₂ (fun x w => resolveSlot labels x = .ok w) out ws := by
  induction out generalizing ws with
  | nil => simp [passTwo, eq_comm]
  | cons x rest ih =>
    simp only [passTwo, bind_ok_iff, ih, List.forall₂_cons_left_iff]
    constructor
    · rintro ⟨w, hw, us, hus, h⟩
      cases h
      exact ⟨w, us, hw, hus, rfl⟩
    · rintro ⟨w, us, hw, hus, rfl⟩
      exact ⟨w, hw, us, hus, rfl⟩

/-- D10: the first slot that has no word decides the failure. -/
theorem passTwo_append_error {labels : List (Text × Nat)} {before : List Slot} {ws : List Word} {x : Slot}
    {f : Failure} (hb : passTwo labels before = .ok ws) (hx : resolveSlot labels x = .error f) (after : List Slot) :
    passTwo labels (before ++ x :: after) = .error f := by
  induction before generalizing ws with
  | nil => exact bind_of_error hx _
  | cons y rest ih =>
    obtain ⟨w, hy, h⟩ := bind_ok_iff.mp hb
    obtain ⟨us, hrest, -⟩ := bind_ok_iff.mp h
    exact (bind_of_ok hy _).trans (bind_of_error (ih hrest) _)

/-- Pass two, said of the indices. -/
theorem passTwo_ok_iff_getElem? {labels : List (Text × Nat)} {out : List Slot} {ws : List Word} :
    passTwo labels out = .ok ws ↔ ws.length = out.length ∧
      ∀ (i : Nat) x, out[i]? = some x → ∃ w, resolveSlot labels x = .ok w ∧ ws[i]? = some w := by
  rw [passTwo_ok_iff, List.forall₂_iff_get, eq_comm]
  refine and_congr_right fun hlen => ⟨fun h i x hx => ?_, fun h i hi hi' => ?_⟩
  · obtain ⟨hi, rfl⟩ := List.getElem?_eq_some_iff.mp hx
    exact ⟨_, h i hi (hlen ▸ hi), List.getElem?_eq_getElem _⟩
  · obtain ⟨w, hw, he⟩ := h i _ (List.getElem?_eq_getElem hi)
    rw [List.getElem?_eq_getElem hi'] at he
    cases he
    exact hw

/-- Each word that pass two answers is a slot's. -/
theorem exists_slot_of_mem_passTwo {labels : List (Text × Nat)} {out : List Slot} {ws : List Word}
    (h : passTwo labels out = .ok ws) {w : Word} (hw : w ∈ ws) : ∃ x ∈ out, resolveSlot labels x = .ok w := by
  obtain ⟨hlen, hslots⟩ := passTwo_ok_iff_getElem?.mp h
  obtain ⟨i, hi, rfl⟩ := List.getElem_of_mem hw
  obtain ⟨w, hx, hw⟩ := hslots i _ (List.getElem?_eq_getElem (hlen ▸ hi))
  rw [List.getElem?_eq_getElem hi] at hw
  exact ⟨_, List.getElem_mem _, hx.trans (congrArg Except.ok (Option.some.inj hw).symm)⟩

/-! Pass one (R85, R87): the slots of a line. -/

/-- The word of a resolved slot is a two-operand instruction's, so that a jump reaches pass two as a placeholder. -/
def Slot.FromOperands : Slot → Prop
  | .resolved w => ∃ mn o1 o2, encodeOperands mn o1 o2 = .ok w
  | .pendingJump _ _ => True

/-- R92: each line of the expansion of `set` is a two-operand line. -/
theorem setStores_operands {k : Nat} {values : List Int} {x : Source} (h : x ∈ setStores k values) :
    ∃ mn o1 o2, x = .operands mn o1 o2 := by
  induction values generalizing k with
  | nil => cases h
  | cons v rest ih =>
    rcases List.mem_cons.mp h with rfl | h
    · exact ⟨_, _, _, rfl⟩
    rcases List.mem_cons.mp h with rfl | h
    · exact ⟨_, _, _, rfl⟩
    · exact ih h

/-- R92: what the expansion of `set` can answer. -/
theorem setExpansion_ok {list : List Int} {sources : List Source} (h : setExpansion list = .ok sources) :
    ∃ values : List Int, list = (values.length : Int) :: values ∧ sources = setStores 0 values ++ [clearScratch] := by
  cases list with
  | nil => cases h
  | cons c values =>
    by_cases hc : c = (values.length : Int)
    · subst hc
      cases (setExpansion_of_count values).symm.trans h
      exact ⟨values, rfl, rfl⟩
    · rw [setExpansion_of_wrong_count hc] at h
      cases h

theorem setExpansion_operands {list : List Int} {sources : List Source} (h : setExpansion list = .ok sources) :
    ∀ x ∈ sources, ∃ mn o1 o2, x = .operands mn o1 o2 := by
  obtain ⟨values, -, rfl⟩ := setExpansion_ok h
  intro x hx
  rcases List.mem_append.mp hx with hx | hx
  · exact setStores_operands hx
  · exact ⟨_, _, _, List.mem_singleton.mp hx⟩

theorem encodeAll_length {sources : List Source} {ws : List Word} (h : encodeAll sources = .ok ws) :
    ws.length = sources.length := by
  induction sources generalizing ws with
  | nil => cases h; rfl
  | cons x rest ih =>
    obtain ⟨w, us, -, hus, rfl⟩ := encodeAll_cons_ok_iff.mp h
    exact congrArg (· + 1) (ih hus)

theorem encodeAll_fromOperands {sources : List Source} {ws : List Word} (h : encodeAll sources = .ok ws)
    (ho : ∀ x ∈ sources, ∃ mn o1 o2, x = .operands mn o1 o2) : ∀ x ∈ ws.map Slot.resolved, x.FromOperands := by
  induction sources generalizing ws with
  | nil => cases h; exact List.forall_mem_nil _
  | cons x rest ih =>
    obtain ⟨w, us, hw, hus, rfl⟩ := encodeAll_cons_ok_iff.mp h
    obtain ⟨⟨mn, o1, o2, rfl⟩, hrest⟩ := List.forall_mem_cons.mp ho
    exact List.forall_mem_cons.mpr ⟨⟨mn, o1, o2, hw⟩, ih hus hrest⟩

/-- R87: a line gives at least one slot, and a jump only as a placeholder. -/
theorem lineSlots_ok {line : Text} {slots : List Slot} (h : lineSlots line = .ok slots) :
    0 < slots.length ∧ ∀ x ∈ slots, x.FromOperands := by
  unfold lineSlots at h
  split at h
  · cases h
  split at h
  · cases h
  · split at h
    · cases h
      exact ⟨Nat.one_pos, List.forall_mem_singleton.mpr trivial⟩
    · cases h
  · split at h
    · cases h
    · obtain ⟨sources, hs, h⟩ := bind_ok_iff.mp h
      obtain ⟨ws, hws, h⟩ := bind_ok_iff.mp h
      cases h
      obtain ⟨values, -, rfl⟩ := setExpansion_ok hs
      refine ⟨?_, encodeAll_fromOperands hws (setExpansion_operands hs)⟩
      rw [List.length_map, encodeAll_length hws, List.length_append]
      exact Nat.succ_pos _
  · split at h
    · obtain ⟨o1, -, h⟩ := bind_ok_iff.mp h
      obtain ⟨o2, -, h⟩ := bind_ok_iff.mp h
      obtain ⟨w, hw, h⟩ := bind_ok_iff.mp h
      cases h
      exact ⟨Nat.one_pos, List.forall_mem_singleton.mpr ⟨_, o1, o2, hw⟩⟩
    · cases h

/-! What pass one keeps. -/

/-- Resolved slots are the operand encoder's (R87), and a label is bound to the index of a slot that exists (R89). -/
def PassOne.Inv (p : PassOne) : Prop :=
  (∀ x ∈ p.out, x.FromOperands) ∧ ∀ label n, lookupLabel label p.labels = some n → n < p.out.length

/-- R85, R87: a line adds its slots, and binds at most one label, to the index of its first slot. -/
theorem passOneLine_ok {p q : PassOne} {line : Text} (h : passOneLine p line = .ok q) :
    ∃ rest slots, lineSlots rest = .ok slots ∧ q.out = p.out ++ slots ∧
      (q.labels = p.labels ∨ ∃ name, q.labels = (name, p.out.length) :: p.labels) := by
  unfold passOneLine at h
  split at h
  · dsimp only at h
    split at h
    · obtain ⟨slots, hslots, h⟩ := bind_ok_iff.mp h
      cases h
      exact ⟨_, slots, hslots, rfl, .inr ⟨_, rfl⟩⟩
    · cases h
  · obtain ⟨slots, hslots, h⟩ := bind_ok_iff.mp h
    cases h
    exact ⟨_, slots, hslots, rfl, .inl rfl⟩

theorem passOneLine_inv {p q : PassOne} {line : Text} (hp : p.Inv) (h : passOneLine p line = .ok q) : q.Inv := by
  obtain ⟨hout, hlabels⟩ := hp
  obtain ⟨rest, slots, hslots, hq, hl⟩ := passOneLine_ok h
  obtain ⟨hpos, hfrom⟩ := lineSlots_ok hslots
  refine ⟨?_, fun label n hn => ?_⟩
  · rw [hq]
    exact List.forall_mem_append.mpr ⟨hout, hfrom⟩
  · rw [hq, List.length_append]
    have hold : lookupLabel label p.labels = some n → n < p.out.length + slots.length :=
      fun hn => Nat.lt_add_right _ (hlabels label n hn)
    rcases hl with hl | ⟨name, hl⟩
    · exact hold (hl ▸ hn)
    · rw [hl, lookupLabel] at hn
      split at hn
      · cases hn
        omega
      · exact hold hn

theorem passOne_inv {lines : List Text} {p q : PassOne} (hp : p.Inv) (h : passOne p lines = .ok q) : q.Inv := by
  induction lines generalizing p with
  | nil => cases h; exact hp
  | cons line rest ih =>
    obtain ⟨r, hr, h⟩ := bind_ok_iff.mp h
    exact ih (passOneLine_inv hp hr) h

/-- R78: the words of an accepted text are pass two's, on slots and labels that meet the invariant. -/
theorem assemble_ok {lines : List Text} {ws : List Word} (h : assemble lines = .ok ws) :
    ∃ p : PassOne, p.Inv ∧ passTwo p.labels p.out = .ok ws := by
  obtain ⟨p, hp, h⟩ := bind_ok_iff.mp h
  have hstart : PassOne.Inv ⟨[], []⟩ := ⟨List.forall_mem_nil _, fun _ _ hn => by cases hn⟩
  exact ⟨p, passOne_inv hstart hp, h⟩

/-- R86, R89: an assembled word is the operand encoder's, or a jump to an index of the program. -/
theorem assembled_word_cases {lines : List Text} {ws : List Word} (h : assemble lines = .ok ws) {w : Word}
    (hw : w ∈ ws) : (∃ mn o1 o2, encodeOperands mn o1 o2 = .ok w) ∨
      ∃ k, ∃ n : Nat, n < ws.length ∧ encodeJump k (n : Int) = .ok w := by
  obtain ⟨p, ⟨hout, hlabels⟩, h⟩ := assemble_ok h
  obtain ⟨hlen, -⟩ := passTwo_ok_iff_getElem?.mp h
  obtain ⟨x, hx, hres⟩ := exists_slot_of_mem_passTwo h hw
  cases x with
  | resolved u =>
    cases hres
    exact .inl (hout _ hx)
  | pendingJump k label =>
    obtain ⟨n, hn, hj⟩ := resolveSlot_pendingJump_ok_iff.mp hres
    exact .inr ⟨k, n, hlen ▸ hlabels label n hn, hj⟩

/-- R75: no two-operand word is a jump. -/
theorem opcode_not_jump_of_encodeOperands {mn : Mnemonic} {o1 o2 : Operand} {w : Word}
    (h : encodeOperands mn o1 o2 = .ok w) : (decodeFields w).opcode ∉ [11, 12, 13, 15] := by
  obtain ⟨opc, a, v, hs, -, -, hf⟩ := decodeFields_encodeOperands h
  have hopc : (decodeFields w).opcode = opc := by
    rw [hf]
    split <;> rfl
  have hc : opc ∈ [0, 1, 2, 3, 14, 4, 5, 6, 7, 8, 9, 10] :=
    List.mem_map_of_mem (f := fun q => q.2.2.2) (selectOpcode_cases hs)
  rw [hopc]
  fin_cases hc <;> decide

end Sys2Proof.Machine
end

section
/-! Proofs of the encoding family: the assembler (spec/30_encoding.md R78 to R93). -/

namespace Sys2Proof.Machine

/-- Settles O10: the expansion is the stores and the clearing line, and its words fill the cells from 0 on. -/
theorem setStoresItsValues : Obligations.SetStoresItsValues := by
  refine ⟨fun c values h => setExpansion_of_wrong_count h,
    fun values => ⟨_, setExpansion_of_count values, ?_, fun i v h => ?_, ?_⟩,
    fun values sources ws s hsrc hws hr hm hwf => ?_⟩
  · rw [List.length_append, length_setStores, List.length_singleton]
  · obtain ⟨hi, -⟩ := List.getElem?_eq_some_iff.mp h
    obtain ⟨hload, hstore⟩ := getElem?_setStores h 0
    rw [Nat.zero_add] at hstore
    have hlen := length_setStores 0 values
    exact ⟨(List.getElem?_append_left (by omega)).trans hload, (List.getElem?_append_left (by omega)).trans hstore⟩
  · rw [← length_setStores 0 values]
    exact List.getElem?_concat_length
  · cases (setExpansion_of_count values).symm.trans hsrc
    have hfit : 0 + values.length ≤ s.dm.size := by omega
    have hget := fun addr => (Memory.get_fill hwf hfit addr).trans (if_pos (Nat.zero_le addr))
    refine ⟨_, execWords_setStores hws hr hfit, fun i v hi => ?_, fun addr ha => ?_, rfl, ⟨rfl, rfl⟩,
      ⟨rfl, rfl, List.length_set, Memory.fill_size _ _ _⟩, rfl, rfl⟩
    · rw [hget, Nat.sub_zero, hi, Option.getD_some]
    · rw [hget, Nat.sub_zero, List.getElem?_eq_none ha, Option.getD_none]

/-- Settles O11: each word is the answer of one of the encoder's two entry points. -/
theorem assembledWordsAreCanonical : Obligations.AssembledWordsAreCanonical := by
  intro lines ws h w hw
  rcases assembled_word_cases h hw with ⟨mn, o1, o2, he⟩ | ⟨k, n, -, he⟩
  · exact canonical_of_encodeSource (x := .operands mn o1 o2) he
  · exact canonical_of_encodeSource (x := .jump k n) he

/-- Settles O12: a word with a jump's opcode is the jump to an index of the program, which is its literal. -/
theorem assembledJumpsStayInside : Obligations.AssembledJumpsStayInside := by
  intro lines ws h w hw hopc
  rcases assembled_word_cases h hw with ⟨mn, o1, o2, he⟩ | ⟨k, n, hn, he⟩
  · exact absurd hopc (opcode_not_jump_of_encodeOperands he)
  · obtain ⟨l, hl, hf⟩ := decodeFields_encodeJump he
    cases Int.ofNat_inj.mp hl
    rw [hf]
    exact hn

/-- Settles O13: pass two answers the slots' words one by one, and a slot that has none decides the failure. -/
theorem passTwoResolvesEveryJump : Obligations.PassTwoResolvesEveryJump := by
  refine ⟨fun labels out ws => ?_, fun labels before after ws k label hb => ⟨fun hl => ?_, fun n hl hn => ?_⟩⟩
  · rw [passTwo_ok_iff_getElem?]
    refine and_congr_right fun _ => ⟨fun h => ⟨fun i w hi => ?_, fun i k label hi => ?_⟩, fun h i x hi => ?_⟩
    · obtain ⟨u, hu, hi⟩ := h i _ hi
      cases hu
      exact hi
    · obtain ⟨w, hw, hi⟩ := h i _ hi
      obtain ⟨n, hn, hj⟩ := resolveSlot_pendingJump_ok_iff.mp hw
      exact ⟨n, w, hn, hj, hi⟩
    · obtain ⟨hresolved, hjump⟩ := h
      cases x with
      | resolved w => exact ⟨w, resolveSlot_resolved labels w, hresolved i w hi⟩
      | pendingJump k label =>
        obtain ⟨n, w, hn, hj, hi⟩ := hjump i k label hi
        exact ⟨w, resolveSlot_pendingJump_ok_iff.mpr ⟨n, hn, hj⟩, hi⟩
  · exact passTwo_append_error hb (resolveSlot_unbound hl k) after
  · exact passTwo_append_error hb ((resolveSlot_bound hl k).trans (encodeJump_of_out (.inr (by omega)))) after

end Sys2Proof.Machine
end

section
/-! Laws of the cycle family: what an instruction answers in every state, as one equation. The bounds tests come first,
then the range test, and then everything is written (spec/40_dispatch_cycle.md R105; spec/60_exceptions.md R187). -/

namespace Sys2Proof.Machine

/-- The contents of register `i`, for the registers that exist (`getElem?_regs`). -/
def State.reg (s : State) (i : Nat) : Value := s.regs.getD i 0

theorem State.getElem?_regs {s : State} {i : Nat} (h : i < s.nregs) : s.regs[i]? = some (s.reg i) := by
  rw [State.reg, List.getD_eq_getElem?_getD, List.getElem?_eq_getElem h, Option.getD_some]

/-- The state a failing cycle leaves (R190). -/
def State.fail (s : State) (k : FailureKind) : State := { s with status := .failed k }

/-- R142: the register and both flags from the result. -/
def State.setResult (s : State) (a : Nat) (res : Value) : State := setFlags { s with regs := s.regs.set a res } res

/-- The range test of R142: the instruction stores a result, and the result has no place in a register. -/
def resultOutside (i : Instr) (s : State) : Bool :=
  storesResult i && (arithResult i s).any fun r => !inRange s.xlen r

/-- The state an instruction leads to when it completes. -/
def completed (i : Instr) (s : State) : State :=
  match i with
  | .movRR a b => { s with regs := s.regs.set a (s.reg b) }.advance
  | .movRI a l => { s with regs := s.regs.set a (literal l) }.advance
  | .movRD a b => { s with regs := s.regs.set a (s.dm.get b) }.advance
  | .movDR a b => { s with dm := s.dm.put a (s.reg b) }.advance
  | .movRX a b => { s with regs := s.regs.set a (s.dm.get (s.reg b).toNat) }.advance
  | .xchg a b => { s with regs := (s.regs.set a (s.reg b)).set b (s.reg a) }.advance
  | .addRR a b => (s.setResult a (aluAdd (s.reg a) (s.reg b))).advance
  | .addRI a l => (s.setResult a (aluAdd (s.reg a) (literal l))).advance
  | .subRR a b => (s.setResult a (aluSub (s.reg a) (s.reg b))).advance
  | .subRI a l => (s.setResult a (aluSub (s.reg a) (literal l))).advance
  | .cmpRR a b => (setFlags s (aluSub (s.reg a) (s.reg b))).advance
  | .cmpRI a l => (setFlags s (aluSub (s.reg a) (literal l))).advance
  | .js l => s.branch s.sf l
  | .jns l => s.branch (!s.sf) l
  | .jne l => s.branch (!s.zf) l
  | .je l => s.branch s.zf l

/-- A cycle in the order of R187. `exec_eq` ties it to `exec`. -/
def cycle (i : Instr) (s : State) : State :=
  if indexOutside i s then s.fail .boundsFailure
  else if resultOutside i s then s.fail .valueRangeFailure
  else completed i s

section

variable {i : Instr} {s : State}

/-! R140: the exact result, where the operands exist. -/

theorem arithResult_addRR {a b : Nat} (ha : a < s.nregs) (hb : b < s.nregs) :
    arithResult (.addRR a b) s = some (aluAdd (s.reg a) (s.reg b)) := by
  simp [arithResult, aluAdd, State.getElem?_regs ha, State.getElem?_regs hb]

theorem arithResult_subRR {a b : Nat} (ha : a < s.nregs) (hb : b < s.nregs) :
    arithResult (.subRR a b) s = some (aluSub (s.reg a) (s.reg b)) := by
  simp [arithResult, aluSub, State.getElem?_regs ha, State.getElem?_regs hb]

theorem arithResult_addRI {a l : Nat} (ha : a < s.nregs) :
    arithResult (.addRI a l) s = some (aluAdd (s.reg a) (literal l)) := by
  simp [arithResult, aluAdd, literal, State.getElem?_regs ha]

theorem arithResult_subRI {a l : Nat} (ha : a < s.nregs) :
    arithResult (.subRI a l) s = some (aluSub (s.reg a) (literal l)) := by
  simp [arithResult, aluSub, literal, State.getElem?_regs ha]

theorem resultOutside_of_result (hi : storesResult i = true) {res : Int} (hres : arithResult i s = some res) :
    resultOutside i s = !inRange s.xlen res := by
  simp [resultOutside, hi, hres]

theorem resultOutside_eq_false_iff : resultOutside i s = false ↔
    (storesResult i = true → ∀ r, arithResult i s = some r → inRange s.xlen r = true) := by
  cases hres : arithResult i s <;> simp [resultOutside, hres]

/-! The three ways a cycle ends. -/

theorem cycle_of_indexOutside (h : indexOutside i s = true) : cycle i s = s.fail .boundsFailure := if_pos h

theorem cycle_of_resultOutside (h : indexOutside i s = false) (hr : resultOutside i s = true) :
    cycle i s = s.fail .valueRangeFailure := by
  simp only [cycle, h, hr, if_true, Bool.false_eq_true, if_false]

theorem cycle_of_completes (h : indexOutside i s = false) (hr : resultOutside i s = false) :
    cycle i s = completed i s := by
  simp only [cycle, h, hr, Bool.false_eq_true, if_false]

/-! The operations of an instruction, one after another: a bounds test that fails is the table's (R182), and what is
left to do after the last one is to complete. -/

/-- An operation raises BoundsFailure, on a ground of the table, or hands its value on. -/
theorem finish_bind {α : Type} {x : Except Failure α} {g : α → Except Failure State}
    (hout : ∀ f, x = .error f → f.kind = .boundsFailure ∧ indexOutside i s = true)
    (hin : ∀ v, x = .ok v → finish s (g v) = .next (cycle i s)) : finish s (x >>= g) = .next (cycle i s) := by
  cases x with
  | ok v => exact hin v rfl
  | error f =>
    obtain ⟨hk, ho⟩ := hout f rfl
    rw [cycle_of_indexOutside ho, State.fail, ← hk]
    rfl

theorem finish_readReg {b : Nat} {g : Value → Except Failure State} (hout : s.nregs ≤ b → indexOutside i s = true)
    (hin : b < s.nregs → finish s (g (s.reg b)) = .next (cycle i s)) :
    finish s (readReg s b >>= g) = .next (cycle i s) := by
  refine finish_bind (fun f hf => ?_) fun v hv => ?_
  · obtain ⟨hb, rfl⟩ := readReg_error_iff.mp hf
    exact ⟨rfl, hout hb⟩
  · rw [readReg_ok_iff] at hv
    have hb : b < s.nregs := (List.getElem?_eq_some_iff.mp hv).1
    cases (State.getElem?_regs hb).symm.trans hv
    exact hin hb

theorem finish_memRead {p : Int} {g : Value → Except Failure State}
    (hout : p < 0 ∨ (s.dm.size : Int) ≤ p → indexOutside i s = true)
    (hin : 0 ≤ p → p < (s.dm.size : Int) → finish s (g (s.dm.get p.toNat)) = .next (cycle i s)) :
    finish s (memRead s p >>= g) = .next (cycle i s) := by
  refine finish_bind (fun f hf => ?_) fun v hv => ?_
  · obtain ⟨hp, rfl⟩ := memRead_error_iff.mp hf
    exact ⟨rfl, hout hp⟩
  · obtain ⟨⟨h0, hlt⟩, rfl⟩ := memRead_ok_iff.mp hv
    exact hin h0 hlt

theorem finish_loadDirect {b : Nat} {g : Value → Except Failure State} (hout : s.dm.size ≤ b → indexOutside i s = true)
    (hin : b < s.dm.size → finish s (g (s.dm.get b)) = .next (cycle i s)) :
    finish s (loadDirect s b >>= g) = .next (cycle i s) :=
  finish_memRead (fun h => hout (by simp only [directAddress] at h; omega)) fun _ hb => hin (Int.ofNat_lt.mp hb)

theorem finish_loadIndirect {b : Nat} {g : Value → Except Failure State} (hb : s.nregs ≤ b → indexOutside i s = true)
    (hout : b < s.nregs → s.reg b < 0 ∨ (s.dm.size : Int) ≤ s.reg b → indexOutside i s = true)
    (hin : b < s.nregs → 0 ≤ s.reg b → s.reg b < (s.dm.size : Int) →
      finish s (g (s.dm.get (s.reg b).toNat)) = .next (cycle i s)) :
    finish s (loadIndirect s b >>= g) = .next (cycle i s) := by
  rw [loadIndirect, bind_assoc]
  exact finish_readReg hb fun h => finish_memRead (hout h) (hin h)

/-- The end of a move to a register. -/
theorem finish_writeReg {a : Nat} {v : Value} (hout : s.nregs ≤ a → indexOutside i s = true)
    (hin : a < s.nregs → cycle i s = { s with regs := s.regs.set a v }.advance) :
    finish s (writeReg s a v >>= fun t => pure t.advance) = .next (cycle i s) := by
  refine finish_bind (fun f hf => ?_) fun t ht => ?_
  · obtain ⟨ha, rfl⟩ := writeReg_error_iff.mp hf
    exact ⟨rfl, hout ha⟩
  · obtain ⟨ha, rfl⟩ := writeReg_ok_iff.mp ht
    exact congrArg Host.Outcome.next (hin ha).symm

/-- The end of MOV_DR. -/
theorem finish_storeDirect {a : Nat} {v : Value} (hout : s.dm.size ≤ a → indexOutside i s = true)
    (hin : a < s.dm.size → cycle i s = { s with dm := s.dm.put a v }.advance) :
    finish s (storeDirect s a v >>= fun t => pure t.advance) = .next (cycle i s) := by
  refine finish_bind (fun f hf => ?_) fun t ht => ?_
  · obtain ⟨ha, rfl⟩ := memWrite_error_iff.mp hf
    exact ⟨rfl, hout (by simp only [directAddress] at ha; omega)⟩
  · obtain ⟨⟨-, ha⟩, rfl⟩ := memWrite_ok_iff.mp ht
    exact congrArg Host.Outcome.next (hin (Int.ofNat_lt.mp ha)).symm

/-- An instruction on one register begins by reading it. -/
theorem finish_readOne {a : Nat} {g : Value → Except Failure State} (hi : indexOutside i s = decide (s.nregs ≤ a))
    (hin : a < s.nregs → indexOutside i s = false → finish s (g (s.reg a)) = .next (cycle i s)) :
    finish s (readReg s a >>= g) = .next (cycle i s) :=
  finish_readReg (by simp [hi]) fun ha => hin ha (by simp [hi, ha])

/-- An instruction on two registers begins by reading both. -/
theorem finish_readBoth {a b : Nat} {g : Value → Value → Except Failure State}
    (hi : indexOutside i s = (decide (s.nregs ≤ a) || decide (s.nregs ≤ b)))
    (hin : a < s.nregs → b < s.nregs → indexOutside i s = false →
      finish s (g (s.reg a) (s.reg b)) = .next (cycle i s)) :
    finish s (readReg s a >>= fun p => readReg s b >>= g p) = .next (cycle i s) :=
  finish_readReg (by simp +contextual [hi]) fun ha => finish_readReg (by simp +contextual [hi]) fun hb =>
    hin ha hb (by simp [hi, ha, hb])

/-- The end of an ADD or SUB: the range test, and then the writes. -/
theorem finish_arithStore {a : Nat} {res : Value} (ha : a < s.nregs) (ho : indexOutside i s = false)
    (hi : storesResult i = true) (hres : arithResult i s = some res)
    (hc : completed i s = (s.setResult a res).advance) :
    finish s (arithStore s a res >>= fun t => pure t.advance) = .next (cycle i s) := by
  have hout := resultOutside_of_result hi hres
  cases hr : inRange s.xlen res with
  | true =>
    rw [bind_of_ok (arithStore_ok_iff.mpr ⟨hr, ha, rfl⟩), cycle_of_completes ho (by simp [hout, hr]), hc]
    rfl
  | false =>
    rw [bind_of_error (arithStore_error_iff.mpr (.inl ⟨hr, rfl⟩)), cycle_of_resultOutside ho (by simp [hout, hr])]
    rfl

/-- The end of XCHG: both writes. -/
theorem finish_exchange {a b : Nat} {v u : Value} (ha : a < s.nregs) (hb : b < s.nregs)
    (hc : cycle i s = { s with regs := (s.regs.set a u).set b v }.advance) :
    finish s (writeReg s a u >>= fun x => writeReg x b v >>= fun y => pure y.advance) = .next (cycle i s) := by
  rw [bind_of_ok (writeReg_ok_iff.mpr ⟨ha, rfl⟩),
    bind_of_ok (writeReg_ok_iff.mpr ⟨by simpa [State.nregs] using hb, rfl⟩), hc]
  rfl

/-- The end of a CMP, which has no operation left that could raise. -/
theorem next_completed (ho : indexOutside i s = false) (hr : resultOutside i s = false) :
    (Host.Outcome.next (completed i s) : Host.Outcome State Fault Refusal) = .next (cycle i s) :=
  congrArg Host.Outcome.next (cycle_of_completes ho hr).symm

end

/-- Everything an instruction answers, arm by arm of the dispatch (R104). -/
theorem exec_eq (i : Instr) (s : State) : exec i s = .next (cycle i s) := by
  cases i with
  | movRR a b =>
    exact finish_readReg (by simp +contextual [indexOutside]) fun hb =>
      finish_writeReg (by simp +contextual [indexOutside]) fun ha =>
      cycle_of_completes (by simp [indexOutside, ha, hb]) rfl
  | movRI a l =>
    exact finish_writeReg (by simp [indexOutside]) fun ha => cycle_of_completes (by simp [indexOutside, ha]) rfl
  | movRD a b =>
    exact finish_loadDirect (by simp +contextual [indexOutside]) fun hb =>
      finish_writeReg (by simp +contextual [indexOutside]) fun ha =>
      cycle_of_completes (by simp [indexOutside, ha, hb]) rfl
  | movDR a b =>
    exact finish_readReg (by simp +contextual [indexOutside]) fun hb =>
      finish_storeDirect (by simp +contextual [indexOutside]) fun ha =>
      cycle_of_completes (by simp [indexOutside, ha, hb]) rfl
  | movRX a b =>
    exact finish_loadIndirect (by simp +contextual [indexOutside])
      (fun hb h => by simp [indexOutside, State.getElem?_regs hb, h]) fun hb h0 hlt =>
      finish_writeReg (by simp +contextual [indexOutside]) fun ha =>
      cycle_of_completes (by simp [indexOutside, State.getElem?_regs hb, ha, hb, h0, hlt]) rfl
  | xchg a b =>
    exact finish_readBoth rfl fun ha hb ho => finish_exchange ha hb (cycle_of_completes ho rfl)
  | addRR a b =>
    exact finish_readBoth rfl fun ha hb ho => finish_arithStore ha ho rfl (arithResult_addRR ha hb) rfl
  | subRR a b =>
    exact finish_readBoth rfl fun ha hb ho => finish_arithStore ha ho rfl (arithResult_subRR ha hb) rfl
  | addRI a l =>
    exact finish_readOne rfl fun ha ho => finish_arithStore ha ho rfl (arithResult_addRI ha) rfl
  | subRI a l =>
    exact finish_readOne rfl fun ha ho => finish_arithStore ha ho rfl (arithResult_subRI ha) rfl
  | cmpRR a b => exact finish_readBoth rfl fun _ _ ho => next_completed ho rfl
  | cmpRI a l => exact finish_readOne rfl fun _ ho => next_completed ho rfl
  | js l | jns l | jne l | je l => rfl

/-- What an instruction that answers `t` did. -/
theorem exec_next_cases {i : Instr} {s t : State} (h : exec i s = .next t) :
    (indexOutside i s = true ∧ t = s.fail .boundsFailure) ∨
      (indexOutside i s = false ∧ resultOutside i s = true ∧ t = s.fail .valueRangeFailure) ∨
      (indexOutside i s = false ∧ resultOutside i s = false ∧ t = completed i s) := by
  rw [exec_eq] at h
  cases h
  cases ho : indexOutside i s with
  | true => exact .inl ⟨rfl, cycle_of_indexOutside ho⟩
  | false =>
    cases hr : resultOutside i s with
    | true => exact .inr (.inl ⟨rfl, rfl, cycle_of_resultOutside ho hr⟩)
    | false => exact .inr (.inr ⟨rfl, rfl, cycle_of_completes ho hr⟩)

/-- A cycle that does not end in a failure completed. -/
theorem eq_completed_of_running {i : Instr} {s t : State} (h : exec i s = .next t) (ht : t.status = .running) :
    indexOutside i s = false ∧ resultOutside i s = false ∧ t = completed i s := by
  rcases exec_next_cases h with ⟨-, rfl⟩ | ⟨-, -, rfl⟩ | hc
  · cases ht
  · cases ht
  · exact hc

@[simp] theorem completed_status (i : Instr) (s : State) : (completed i s).status = s.status := by cases i <;> rfl

/-- R106: pc is the target of a taken branch, or else the next index. -/
theorem completed_pc (i : Instr) (s : State) : (completed i s).pc = (takenTarget i s).getD (s.pc + 1) := by
  cases i with
  | js | jns | jne | je => simp only [completed, takenTarget, State.branch_pc]; split <;> simp_all
  | _ => rfl

/-- R184: with an unbounded XLEN every result has a place. -/
theorem xlen_ne_unbounded_of_resultOutside {i : Instr} {s : State} (h : resultOutside i s = true) :
    s.xlen ≠ .unbounded := by
  intro hx
  simp [resultOutside, hx, inRange] at h

/-- The taken signal of R116 says of the fields what R162 to R165 say of the instruction. -/
theorem takenTarget_eq {f : Fields} {i : Instr} (h : selectInstr f = .ok i) (s : State) :
    takenTarget i s = if takenSignal f.opcode s.sf s.zf then some f.literal else none := by
  obtain ⟨opc, l, d, a, b⟩ := f
  simp only [selectInstr] at h
  split at h <;> cases h <;> simp [takenTarget, takenSignal]

theorem takenSignal_iff {opc : Nat} {sf zf : Bool} : takenSignal opc sf zf = true ↔
    (opc = 11 ∧ sf = true) ∨ (opc = 12 ∧ sf = false) ∨ (opc = 13 ∧ zf = false) ∨ (opc = 15 ∧ zf = true) := by
  simp [takenSignal, or_assoc]

end Sys2Proof.Machine
end

section
/-! Laws of the cycle family: the signals of the blocks' cycle, each against the instruction the opcode selects
(spec/40_dispatch_cycle.md R112 to R116). -/

namespace Sys2Proof.Machine

/-! The signals of `blockCycle`, which `blockCycle_eq` puts together again. -/

/-- Read port A on the row of the word. -/
def blockPortA (s : State) (f : Fields) : ReadPort := readPort s.regs (controlSignals f.opcode).readA f.op1

/-- Read port B on the row of the word. -/
def blockPortB (s : State) (f : Fields) : ReadPort := readPort s.regs (controlSignals f.opcode).readB f.op2

/-- The ALU on the read data or the literal. -/
def blockAlu (s : State) (f : Fields) : AluOut :=
  let c := controlSignals f.opcode
  alu s.xlen (blockPortA s f).data (if c.qLiteral then (f.literal : Int) else (blockPortB s f).data) c.subtract

/-- The data-memory address. -/
def blockAddress (s : State) (f : Fields) : Int := dmAddress f (blockPortB s f).data (controlSignals f.opcode).dm

/-- Every bounds error of the cycle. -/
def blockBoundsError (s : State) (f : Fields) : Bool :=
  let c := controlSignals f.opcode
  (blockPortA s f).error || (blockPortB s f).error || (decide (c.dm ≠ .no) && !s.dm.inBounds (blockAddress s f)) ||
    writePortError s.regs (decide (c.writeA ≠ .no)) f.op1 || writePortError s.regs c.writeB f.op2

/-- The range error, where the ALU's result goes to a register. -/
def blockRangeError (s : State) (f : Fields) : Bool :=
  decide ((controlSignals f.opcode).writeA = .aluRes) && (blockAlu s f).rangeError

/-- The state after all the writes of the cycle. -/
def blockWrites (s : State) (f : Fields) : State :=
  let c := controlSignals f.opcode
  let out := blockAlu s f
  let addr := blockAddress s f
  { s with
    regs := writePort (writePort s.regs (decide (c.writeA ≠ .no)) f.op1
        (writeAData f (blockPortB s f).data (s.dm.get addr.toNat) out.res c.writeA))
      c.writeB f.op2 (blockPortA s f).data
    dm := if c.dm = .writeOp1 then s.dm.put addr.toNat (blockPortB s f).data else s.dm
    sf := if c.flagsWrite then out.sf else s.sf
    zf := if c.flagsWrite then out.zf else s.zf
    pc := pcBlock s.pc true (takenSignal f.opcode s.sf s.zf) f.literal }

/-- R105, R187: the bounds tests, the range test, the writes. -/
theorem blockCycle_eq (s : State) (w : Word) :
    blockCycle s w =
      if blockBoundsError s (decodeFields w) then s.fail .boundsFailure
      else if blockRangeError s (decodeFields w) then s.fail .valueRangeFailure
      else blockWrites s (decodeFields w) := rfl

/-! Each signal against the instruction that the opcode selects (R116, R182). -/

variable {f : Fields} {i : Instr}

/-- R142, R161: with no error, the blocks write what the instruction writes. -/
theorem blockWrites_eq (s : State) (h : selectInstr f = .ok i) : blockWrites s f = completed i s := by
  obtain ⟨opc, l, d, a, b⟩ := f
  simp only [selectInstr] at h
  split at h <;> cases h
  case h_12 | h_13 | h_14 | h_16 => exact congrArg (s.branch · l) (by simp [takenSignal])
  all_goals rfl

theorem readPort_error_iff {s : State} {e : Bool} {n : Nat} :
    (readPort s.regs e n).error = true ↔ e = true ∧ s.nregs ≤ n := by cases e <;> simp [readPort, State.nregs]

theorem writePortError_iff {s : State} {e : Bool} {n : Nat} :
    writePortError s.regs e n = true ↔ e = true ∧ s.nregs ≤ n := by cases e <;> simp [writePortError, State.nregs]

theorem readPort_data (s : State) (n : Nat) : (readPort s.regs true n).data = s.reg n := rfl

/-- R182: the row of MOV_RX, whose data address is a register's contents. -/
theorem indexOutside_movRX_iff {s : State} {a b : Nat} : indexOutside (.movRX a b) s = true ↔
    s.nregs ≤ a ∨ s.nregs ≤ b ∨ s.reg b < 0 ∨ (s.dm.size : Int) ≤ s.reg b := by
  rcases Nat.lt_or_ge b s.nregs with hb | hb
  · simp [indexOutside, State.getElem?_regs hb, or_assoc]
  · simp [indexOutside, hb]

theorem blockBoundsError_iff {s : State} {f : Fields} : blockBoundsError s f = true ↔
    (controlSignals f.opcode).readA = true ∧ s.nregs ≤ f.op1 ∨
    (controlSignals f.opcode).readB = true ∧ s.nregs ≤ f.op2 ∨
    (controlSignals f.opcode).dm ≠ .no ∧ (blockAddress s f < 0 ∨ (s.dm.size : Int) ≤ blockAddress s f) ∨
    (controlSignals f.opcode).writeA ≠ .no ∧ s.nregs ≤ f.op1 ∨
    (controlSignals f.opcode).writeB = true ∧ s.nregs ≤ f.op2 := by
  have hdm : s.dm.inBounds (blockAddress s f) = false ↔
      blockAddress s f < 0 ∨ (s.dm.size : Int) ≤ blockAddress s f := by
    rw [← Bool.not_eq_true, Memory.inBounds_iff]
    omega
  simp only [blockBoundsError, blockPortA, blockPortB, Bool.or_eq_true, Bool.and_eq_true, Bool.not_eq_true',
    decide_eq_true_eq, readPort_error_iff, writePortError_iff, hdm, or_assoc]

/-- The enabled ports and the accesses of a row test what the table of R182 names for the row's instruction. -/
theorem blockBoundsError_eq (s : State) (h : selectInstr f = .ok i) : blockBoundsError s f = indexOutside i s := by
  obtain ⟨opc, l, d, a, b⟩ := f
  simp only [selectInstr] at h
  rw [Bool.eq_iff_iff, blockBoundsError_iff]
  split at h <;> cases h
  case h_15 =>
    rw [indexOutside_movRX_iff]
    simp [controlSignals, blockAddress, dmAddress, blockPortB, readPort_data]
    tauto
  all_goals simp [controlSignals, blockAddress, dmAddress, indexOutside]
  all_goals omega

/-- R142: the range error of an ADD or SUB whose registers exist. -/
theorem blockRangeError_eq {s : State} (h : selectInstr f = .ok i) (ho : indexOutside i s = false) :
    blockRangeError s f = resultOutside i s := by
  obtain ⟨opc, l, d, a, b⟩ := f
  simp only [selectInstr] at h
  split at h <;> cases h
  case h_6 =>
    obtain ⟨ha, hb⟩ : a < s.nregs ∧ b < s.nregs := by simpa [indexOutside] using ho
    exact (resultOutside_of_result rfl (arithResult_addRR ha hb)).symm
  case h_7 =>
    have ha : a < s.nregs := by simpa [indexOutside] using ho
    exact (resultOutside_of_result rfl (arithResult_addRI ha)).symm
  case h_8 =>
    obtain ⟨ha, hb⟩ : a < s.nregs ∧ b < s.nregs := by simpa [indexOutside] using ho
    exact (resultOutside_of_result rfl (arithResult_subRR ha hb)).symm
  case h_9 =>
    have ha : a < s.nregs := by simpa [indexOutside] using ho
    exact (resultOutside_of_result rfl (arithResult_subRI ha)).symm
  all_goals rfl

/-- The blocks' cycle is the cycle of the instruction decoded. -/
theorem blockCycle_eq_cycle {s : State} {w : Word} (h : decode w = .ok i) : blockCycle s w = cycle i s := by
  rw [blockCycle_eq, blockBoundsError_eq s h, blockWrites_eq s h, cycle]
  cases ho : indexOutside i s with
  | true => rfl
  | false => rw [blockRangeError_eq h ho]

end Sys2Proof.Machine
end

section
/-! Laws of the cycle family: how a run ends (spec/40_dispatch_cycle.md R110), and what an instruction makes of the
flags it finds (R109). -/

namespace Sys2Proof.Machine

/-! The end of a run. -/

/-- R181: the three ways a run ends. -/
def EndsLegally (t : State) : Prop :=
  (t.status = .halted ∧ t.progLen ≤ t.pc) ∨ t.status = .failed .boundsFailure ∨
    (t.status = .failed .valueRangeFailure ∧ t.xlen ≠ .unbounded)

/-- R110: a cycle leaves the machine running or ends its run. -/
theorem running_or_endsLegally_of_step {s t : State} (h : step s = .next t) :
    t.status = .running ∨ EndsLegally t := by
  have hs := running_of_step_next h
  obtain ⟨hf, rfl⟩ | ⟨w, i, -, -, -, he⟩ := step_next_cases h
  · exact .inr (.inl ⟨rfl, fetch_none_iff.mp hf⟩)
  · rcases exec_next_cases he with ⟨-, rfl⟩ | ⟨-, hr, rfl⟩ | ⟨-, -, rfl⟩
    · exact .inr (.inr (.inl rfl))
    · exact .inr (.inr (.inr ⟨rfl, xlen_ne_unbounded_of_resultOutside hr⟩))
    · exact .inl ((completed_status i s).trans hs)

theorem xlen_of_step {s t : State} (h : step s = .next t) : t.xlen = s.xlen := by
  obtain ⟨⟨hx, -⟩, -⟩ := stepKeepsTheMachineAndHighCells s t h
  exact hx

/-- R108: a run does nothing in a terminal status. -/
theorem runFrom_of_status {s : State} (hs : s.status ≠ .running) (n : Nat) : runFrom n s = .ended s := by
  cases hst : s.status with
  | running => exact absurd hst hs
  | halted | failed => cases n <;> simp only [runFrom, hst]

theorem EndsLegally.status_ne_running {s : State} (h : EndsLegally s) : s.status ≠ .running := by
  rcases h with ⟨h, -⟩ | h | ⟨h, -⟩ <;> simp [h]

/-- So a run that begins at a legal end stays there. -/
theorem EndsLegally.eq_of_runFrom {n : Nat} {s t : State} (hs : EndsLegally s) (h : runFrom n s = .ended t) :
    t = s := by
  rw [runFrom_of_status hs.status_ne_running] at h
  cases h
  rfl

theorem runFrom_zero_of_running {s : State} (hs : s.status = .running) : runFrom 0 s = .outOfFuel s := by
  simp only [runFrom, hs]

theorem runFrom_succ_of_step {s t : State} (h : step s = .next t) (n : Nat) : runFrom (n + 1) s = runFrom n t := by
  simp only [runFrom, running_of_step_next h, h]

/-- A run from a state that is running, or has ended legally, ends legally, with the XLEN it began with. -/
theorem endsLegally_of_runFrom {n : Nat} {s t : State} (hs : s.status = .running ∨ EndsLegally s)
    (h : runFrom n s = .ended t) : EndsLegally t ∧ t.xlen = s.xlen := by
  induction n generalizing s with
  | zero =>
    rcases hs with hs | hs
    · rw [runFrom_zero_of_running hs] at h
      cases h
    · obtain rfl := hs.eq_of_runFrom h
      exact ⟨hs, rfl⟩
  | succ n ih =>
    rcases hs with hs | hs
    · obtain ⟨-, -, hnext⟩ := terminalStatusStopsTheStep
      obtain ⟨u, hu⟩ := hnext s hs
      rw [runFrom_succ_of_step hu] at h
      obtain ⟨hend, hx⟩ := ih (running_or_endsLegally_of_step hu) h
      exact ⟨hend, hx.trans (xlen_of_step hu)⟩
    · obtain rfl := hs.eq_of_runFrom h
      exact ⟨hs, rfl⟩

/-! The flags an instruction finds (R109). -/

/-- `s` with other flag values. -/
def State.withFlags (s : State) (sf zf : Bool) : State := { s with sf := sf, zf := zf }

theorem sameUpToFlags_withFlags (s : State) (sf zf : Bool) : sameUpToFlags s (s.withFlags sf zf) := rfl

theorem exists_withFlags {s t : State} (h : sameUpToFlags s t) : ∃ sf zf, t = s.withFlags sf zf := ⟨t.sf, t.zf, h⟩

@[simp] theorem indexOutside_withFlags (i : Instr) (s : State) (sf zf : Bool) :
    indexOutside i (s.withFlags sf zf) = indexOutside i s := by cases i <;> rfl

@[simp] theorem resultOutside_withFlags (i : Instr) (s : State) (sf zf : Bool) :
    resultOutside i (s.withFlags sf zf) = resultOutside i s := by cases i <;> rfl

/-- R141: the old flags do not enter an arithmetic result. -/
theorem completed_withFlags_of_isArithmetic {i : Instr} (hi : isArithmetic i = true) (s : State) (sf zf : Bool) :
    completed i (s.withFlags sf zf) = completed i s := by
  cases i with
  | addRR | addRI | subRR | subRI | cmpRR | cmpRI => rfl
  | _ => cases hi

/-- Only a branch reads a flag. -/
theorem completed_withFlags_of_not_isBranch {i : Instr} (hi : isBranch i = false) (s : State) (sf zf : Bool) :
    sameUpToFlags (completed i s) (completed i (s.withFlags sf zf)) := by
  cases i with
  | js | jns | jne | je => cases hi
  | _ => rfl

/-- The failing tests do not read the flags either. -/
theorem cycle_withFlags_of_not_isBranch {i : Instr} (hi : isBranch i = false) (s : State) (sf zf : Bool) :
    sameUpToFlags (cycle i s) (cycle i (s.withFlags sf zf)) := by
  simp only [cycle, indexOutside_withFlags, resultOutside_withFlags]
  split
  · rfl
  · split
    · rfl
    · exact completed_withFlags_of_not_isBranch hi s sf zf

end Sys2Proof.Machine
end

section
/-! Proofs of the cycle family (spec/40_dispatch_cycle.md R100 to R116). -/

namespace Sys2Proof.Machine

/-- Settles O36: the fetch and the decode lead to the dispatch. -/
theorem stepExecutesTheDecodedInstruction : Obligations.StepExecutesTheDecodedInstruction :=
  fun _ _ _ hs hf hd => step_of_decode hs hf hd

/-- Settles O37: past the end the fetch answers nothing; an executed instruction fails or keeps the status. -/
theorem haltTestEndsTheRun : Obligations.HaltTestEndsTheRun := by
  refine ⟨fun s hs hpc => step_of_fetch_none hs (fetch_none_iff.mpr hpc), fun s t hs h ht => ?_⟩
  obtain ⟨hf, -⟩ | ⟨w, i, -, -, -, he⟩ := step_next_cases h
  · exact fetch_none_iff.mp hf
  · rcases exec_next_cases he with ⟨-, rfl⟩ | ⟨-, -, rfl⟩ | ⟨-, -, rfl⟩
    · cases ht
    · cases ht
    · rw [completed_status, hs] at ht
      cases ht

/-- Settles O39: the cycle completed, and the taken signal is the flag test of the word's own opcode. -/
theorem pcAdvancesOrTakesTheLiteral : Obligations.PcAdvancesOrTakesTheLiteral := by
  intro s t w hs hf h ht
  obtain ⟨i, hd, -⟩ := decode_wellFormed w
  rw [step_of_decode hs hf hd] at h
  obtain ⟨-, -, rfl⟩ := eq_completed_of_running h ht
  rw [completed_pc, takenTarget_eq hd, apply_ite (Option.getD · _)]
  exact if_congr takenSignal_iff rfl rfl

/-- Settles O44: with no index and no result outside, the cycle completes. -/
theorem everyInstructionCompletes : Obligations.EveryInstructionCompletes := by
  intro i s ho hres
  have hr := resultOutside_eq_false_iff.mpr hres
  exact ⟨completed i s, by rw [exec_eq, cycle_of_completes ho hr], completed_status i s, completed_pc i s⟩

/-- Settles O55: the run's first state is the constructed one. -/
theorem runsEndLegally : Obligations.RunsEndLegally := by
  intro p s t fuel hc hrun
  obtain ⟨-, rfl⟩ := construct_some_iff.mp hc
  obtain ⟨hend, hx⟩ := endsLegally_of_runFrom (.inl rfl) hrun
  rw [EndsLegally, hx] at hend
  exact hend

/-- Settles O56: each signal of the blocks is the instruction's own. -/
theorem blocksComputeTheCycle : Obligations.BlocksComputeTheCycle := by
  intro s w hs hf
  obtain ⟨i, hd, -⟩ := decode_wellFormed w
  rw [step_of_decode hs hf hd, exec_eq, blockCycle_eq_cycle hd]

/-- Settles O58: an arithmetic instruction that completes does so, with the same result, from any flags; an instruction
that is no branch reads none. -/
theorem initialFlagsAreForgotten : Obligations.InitialFlagsAreForgotten := by
  constructor
  · intro i s s' t hi hss _ h ht
    obtain ⟨sf, zf, rfl⟩ := exists_withFlags hss
    obtain ⟨ho, hr, rfl⟩ := eq_completed_of_running h ht
    rw [exec_eq, cycle_of_completes (by simpa using ho) (by simpa using hr), completed_withFlags_of_isArithmetic hi]
  · intro i s s' t hi hss h
    obtain ⟨sf, zf, rfl⟩ := exists_withFlags hss
    rw [exec_eq] at h
    cases h
    exact ⟨_, exec_eq i _, cycle_withFlags_of_not_isBranch hi s sf zf⟩

end Sys2Proof.Machine
end

section
/-! Laws of the data-transfer family: the encoding of an instruction with two operands, the cycle that fails on an
index, and the moves between registers (spec/41_data_transfer.md R120 to R126). -/

namespace Sys2Proof.Machine

/-! The encoding of a form is the row of the decoder's selection and the row of the encoder's (R60, R61). -/

theorem hasEncodingRR_of_select {opc : Nat} {mn : Mnemonic} {k1 k2 : OperandKind} {form : Nat → Nat → Instr}
    (hd : ∀ l d a b, selectInstr ⟨opc, l, d, a, b⟩ = .ok (form a b)) (hs : selectOpcode mn k1 k2 = .ok opc)
    (hk : k2 ≠ .lit) : HasEncodingRR opc mn k1 k2 form := by
  refine ⟨fun w hw => ?_, fun a b ha hb => encodeOperands_address hs hk ha hb⟩
  subst hw
  exact hd ..

theorem hasEncodingRI_of_select {opc : Nat} {mn : Mnemonic} {form : Nat → Nat → Instr}
    (hd : ∀ l d a b, selectInstr ⟨opc, l, d, a, b⟩ = .ok (form a l)) (hs : selectOpcode mn .reg .lit = .ok opc) :
    HasEncodingRI opc mn form := by
  refine ⟨fun w hw => ?_, fun a l ha hl => encodeOperands_literal hs ha hl⟩
  subst hw
  exact hd ..

/-- R242, on a ground of the table of R182: the early exit leaves everything but the status as it was. -/
theorem exec_of_indexOutside {i : Instr} {s : State} (h : indexOutside i s = true) :
    exec i s = .next { s with status := .failed .boundsFailure } := by
  rw [exec_eq, cycle_of_indexOutside h, State.fail]

/-- R121. -/
theorem exec_movRR_next {s : State} {a b : Nat} {v : Value} (hv : s.regs[b]? = some v) (ha : a < s.nregs) :
    exec (.movRR a b) s = .next { s with regs := s.regs.set a v, pc := s.pc + 1 } :=
  (finish_bind_of_ok (readReg_ok_iff.mpr hv) _).trans (finish_writeReg_advance ha _)

/-- R126: both reads are made before either write. -/
theorem exec_xchg_next {s : State} {a b : Nat} {v u : Value} (hv : s.regs[a]? = some v) (hu : s.regs[b]? = some u) :
    exec (.xchg a b) s = .next { s with regs := (s.regs.set a u).set b v, pc := s.pc + 1 } := by
  obtain ⟨ha, -⟩ := List.getElem?_eq_some_iff.mp hv
  obtain ⟨hb, -⟩ := List.getElem?_eq_some_iff.mp hu
  refine (finish_bind_of_ok (readReg_ok_iff.mpr hv) _).trans ((finish_bind_of_ok (readReg_ok_iff.mpr hu) _).trans
    ((finish_bind_of_ok (writeReg_ok_iff.mpr ⟨ha, rfl⟩) _).trans
      (finish_bind_of_ok (writeReg_ok_iff.mpr ⟨?_, rfl⟩) _)))
  rwa [State.nregs, List.length_set]

/-- R126: after the two writes each of the registers holds what the other held, also when they are one register. -/
theorem getElem?_exchange {regs : List Value} {a b : Nat} {v u : Value} (hv : regs[a]? = some v)
    (hu : regs[b]? = some u) :
    ((regs.set a u).set b v)[a]? = some u ∧ ((regs.set a u).set b v)[b]? = some v := by
  obtain ⟨ha, -⟩ := List.getElem?_eq_some_iff.mp hv
  obtain ⟨hb, -⟩ := List.getElem?_eq_some_iff.mp hu
  have hset : ((regs.set a u).set b v)[b]? = some v := List.getElem?_set_self (by rwa [List.length_set])
  refine ⟨?_, hset⟩
  by_cases hab : a = b
  · subst hab
    rw [hset, ← hv, hu]
  · rw [List.getElem?_set_ne (Ne.symm hab), List.getElem?_set_self ha]

end Sys2Proof.Machine
end

section
/-! Proofs of the data-transfer family (spec/41_data_transfer.md R121 to R126). -/

namespace Sys2Proof.Machine

/-- Settles O14: the read and the write complete, or one of their indices is outside. -/
theorem movRegisterToRegister : Obligations.MovRegisterToRegister :=
  ⟨hasEncodingRR_of_select (fun _ _ _ _ => rfl) rfl (by decide), fun _ _ _ =>
    ⟨fun _ hv ha => exec_movRR_next hv ha, fun h => exec_of_indexOutside (by simpa [indexOutside, or_comm] using h)⟩⟩

/-- Settles O15: the write completes, or its index is outside. -/
theorem movLiteralToRegister : Obligations.MovLiteralToRegister :=
  ⟨hasEncodingRI_of_select (fun _ _ _ _ => rfl) rfl, fun _ l _ =>
    ⟨fun ha => exec_movRI_next ha l, fun h => exec_of_indexOutside (by simpa [indexOutside] using h)⟩⟩

/-- Settles O16: the load and the write complete, or one of their indices is outside. -/
theorem movCellToRegister : Obligations.MovCellToRegister :=
  ⟨hasEncodingRR_of_select (fun _ _ _ _ => rfl) rfl (by decide), fun _ _ _ =>
    ⟨exec_movRD_next, fun h => exec_of_indexOutside (by simpa [indexOutside, or_comm] using h)⟩⟩

/-- Settles O17: the read and the store complete, and the cells read as after the store; or one of the indices is
outside. -/
theorem movRegisterToCell : Obligations.MovRegisterToCell :=
  ⟨hasEncodingRR_of_select (fun _ _ _ _ => rfl) rfl (by decide), fun a _ _ =>
    ⟨fun v hv ha => ⟨exec_movDR_next hv ha, fun hwf addr =>
        (Memory.get_put hwf a addr v).trans (if_congr eq_comm rfl rfl)⟩,
      fun h => exec_of_indexOutside (by simpa [indexOutside] using h)⟩⟩

/-- Settles O18: the indirect load and the write complete; or the address in the register names no cell; or one of the
register indices is outside. -/
theorem movIndirectToRegister : Obligations.MovIndirectToRegister := by
  refine ⟨hasEncodingRR_of_select (fun _ _ _ _ => rfl) rfl (by decide), fun _ _ _ =>
    ⟨fun _ hp h0 hlt ha => exec_movRX_next hp h0 hlt ha, fun _ hp hout => exec_of_indexOutside ?_,
      fun h => exec_of_indexOutside (indexOutside_movRX_iff.mpr ?_)⟩⟩
  · simp [indexOutside, hp, hout]
  · rcases h with hb | ha
    · exact .inr (.inl hb)
    · exact .inl ha

/-- Settles O19: the reads and the writes complete; or one of the indices is outside, which the reads find before any
write. -/
theorem exchangeSwapsRegisters : Obligations.ExchangeSwapsRegisters :=
  ⟨hasEncodingRR_of_select (fun _ _ _ _ => rfl) rfl (by decide), fun _ _ _ =>
    ⟨fun _ _ hv hu => ⟨exec_xchg_next hv hu, getElem?_exchange hv hu⟩,
      fun h => exec_of_indexOutside (by simpa [indexOutside] using h)⟩⟩

end Sys2Proof.Machine
end

section
/-! Laws of the arithmetic family: the operations of an instruction whose operands exist, and the flags of an exact
result (spec/42_arithmetic_compare.md R141, R142). -/

namespace Sys2Proof.Machine

/-! The operations, one after another. -/

theorem finish_readReg_of_some {s : State} {a : Nat} {p : Value} (hp : s.regs[a]? = some p)
    (g : Value → Except Failure State) : finish s (readReg s a >>= g) = finish s (g p) :=
  finish_bind_of_ok (readReg_ok_iff.mpr hp) g

theorem finish_readBoth_of_some {s : State} {a b : Nat} {p q : Value} (hp : s.regs[a]? = some p)
    (hq : s.regs[b]? = some q) (g : Value → Value → Except Failure State) :
    finish s (readReg s a >>= fun x => readReg s b >>= g x) = finish s (g p q) :=
  (finish_readReg_of_some hp _).trans (finish_readReg_of_some hq _)

/-- The end of an ADD or SUB whose result has a place: the register, both flags and pc. -/
theorem finish_arithStore_advance {s : State} {a : Nat} {p res : Value} (hp : s.regs[a]? = some p)
    (hr : inRange s.xlen res = true) :
    finish s (arithStore s a res >>= fun t => pure t.advance) =
      .next { s with
        regs := s.regs.set a res, zf := decide (res = 0), sf := decide (res < 0), pc := s.pc + 1 } := by
  obtain ⟨ha, -⟩ := List.getElem?_eq_some_iff.mp hp
  exact finish_bind_of_ok (arithStore_ok_iff.mpr ⟨hr, ha, rfl⟩) _

/-- The end of an ADD or SUB whose result has no place (R142, decision D4). -/
theorem finish_arithStore_valueRange {s : State} {res : Value} (hr : inRange s.xlen res = false) (a : Nat) :
    finish s (arithStore s a res >>= fun t => pure t.advance) =
      .next { s with status := .failed .valueRangeFailure } := by
  rw [bind_of_error (arithStore_error_iff.mpr (.inl ⟨hr, rfl⟩))]
  rfl

/-- R148. -/
theorem exec_cmpRR_next {s : State} {a b : Nat} {p q : Int} (hp : s.regs[a]? = some p) (hq : s.regs[b]? = some q) :
    exec (.cmpRR a b) s =
      .next { s with zf := decide (p - q = 0), sf := decide (p - q < 0), pc := s.pc + 1 } :=
  finish_readBoth_of_some hp hq _

/-- R149. -/
theorem exec_cmpRI_next {s : State} {a : Nat} {p : Int} (hp : s.regs[a]? = some p) (l : Nat) :
    exec (.cmpRI a l) s =
      .next { s with zf := decide (p - (l : Int) = 0), sf := decide (p - (l : Int) < 0), pc := s.pc + 1 } :=
  finish_readReg_of_some hp _

/-! The flags (R141). -/

/-- Exactly one of the three states of R141, by the sign of the exact result. -/
theorem flags_cases (r : Int) :
    (r = 0 ∧ decide (r = 0) = true ∧ decide (r < 0) = false) ∨
      (0 < r ∧ decide (r = 0) = false ∧ decide (r < 0) = false) ∨
      (r < 0 ∧ decide (r = 0) = false ∧ decide (r < 0) = true) := by
  simp only [decide_eq_true_eq, decide_eq_false_iff_not]
  omega

/-- So `ZF=1, SF=1` is not among them (R16). -/
theorem flagsInv_of_flags {t : State} {r : Int} (hz : t.zf = decide (r = 0)) (hs : t.sf = decide (r < 0)) :
    t.FlagsInv := by
  simp only [State.FlagsInv, hz, hs, decide_eq_true_eq]
  omega

theorem movedValue_of_isArithmetic {i : Instr} (hi : isArithmetic i = true) (s : State) : movedValue i s = none := by
  cases i with
  | addRR | addRI | subRR | subRI | cmpRR | cmpRI => rfl
  | _ => cases hi

theorem isArithmetic_of_isBranch {i : Instr} (hi : isBranch i = true) : isArithmetic i = false := by
  cases i with
  | js | jns | jne | je => rfl
  | _ => cases hi

namespace Effect

variable {s t : State} {i : Instr}

/-- An arithmetic instruction that did not fail took both flags from its exact result. -/
theorem flags_of_isArithmetic (h : Effect s i t) (hi : isArithmetic i = true) (ht : t.status = .running) :
    ∃ r, arithResult i s = some r ∧ t.zf = decide (r = 0) ∧ t.sf = decide (r < 0) := by
  cases h with
  | arith _ _ hres | compare _ _ hres => exact ⟨_, hres, rfl, rfl⟩
  | failure => cases ht
  | move _ hv => rw [movedValue_of_isArithmetic hi] at hv; cases hv
  | exchange | store => cases hi
  | branch hb => rw [isArithmetic_of_isBranch hb] at hi; cases hi

/-- R16: an instruction that writes the flags writes both from one result. -/
theorem flagsInv (h : Effect s i t) (hs : s.FlagsInv) : t.FlagsInv := by
  cases h with
  | failure | move | exchange | store | branch => exact hs
  | arith | compare => exact flagsInv_of_flags rfl rfl

end Effect

/-! What the branches make of the flags of a result (R150). -/

theorem State.branch_decide (t : State) (P : Prop) [Decidable P] (l : Nat) :
    t.branch (decide P) l = { t with pc := if P then l else t.pc + 1 } := by
  simp only [State.branch, decide_eq_true_eq]

/-- R150: each branch compares with 0 the exact result the flags were set from. -/
theorem exec_branches_of_flags {t : State} {r : Int} (hz : t.zf = decide (r = 0)) (hs : t.sf = decide (r < 0))
    (l : Nat) :
    exec (.je l) t = .next { t with pc := if r = 0 then l else t.pc + 1 } ∧
    exec (.jne l) t = .next { t with pc := if r ≠ 0 then l else t.pc + 1 } ∧
    exec (.js l) t = .next { t with pc := if r < 0 then l else t.pc + 1 } ∧
    exec (.jns l) t = .next { t with pc := if 0 ≤ r then l else t.pc + 1 } := by
  simp only [exec, execJe, execJne, execJs, execJns, hz, hs, ← decide_not, State.branch_decide, ne_eq, not_lt,
    and_self]

/-- The flags a completed compare of `p` and `q` leaves, in its register and in its literal form. -/
theorem flags_of_compare {a b : Nat} {p q : Int} {s t : State} (hp : s.regs[a]? = some p)
    (h : s.regs[b]? = some q ∧ exec (.cmpRR a b) s = .next t ∨ q = (b : Int) ∧ exec (.cmpRI a b) s = .next t) :
    t.zf = decide (p - q = 0) ∧ t.sf = decide (p - q < 0) := by
  rcases h with ⟨hq, h⟩ | ⟨rfl, h⟩
  · cases (exec_cmpRR_next hp hq).symm.trans h
    exact ⟨rfl, rfl⟩
  · cases (exec_cmpRI_next hp b).symm.trans h
    exact ⟨rfl, rfl⟩

end Sys2Proof.Machine
end

section
/-! Proofs of the arithmetic family (spec/42_arithmetic_compare.md R140 to R150). -/

namespace Sys2Proof.Machine

/-- Settles O20: both reads complete, and the sum has a place or not; or one of the indices is outside. -/
theorem addRegister : Obligations.AddRegister :=
  ⟨hasEncodingRR_of_select (fun _ _ _ _ => rfl) rfl (by decide), fun a _ _ =>
    ⟨fun _ _ hp hq hr => (finish_readBoth_of_some hp hq _).trans (finish_arithStore_advance hp hr),
      fun _ _ hp hq hr => (finish_readBoth_of_some hp hq _).trans (finish_arithStore_valueRange hr a),
      fun h => exec_of_indexOutside (by simpa [indexOutside] using h)⟩⟩

/-- Settles O21: the read completes, and the sum has a place or not; or the index is outside. -/
theorem addLiteral : Obligations.AddLiteral :=
  ⟨hasEncodingRI_of_select (fun _ _ _ _ => rfl) rfl, fun a _ _ =>
    ⟨fun _ hp hr => (finish_readReg_of_some hp _).trans (finish_arithStore_advance hp hr),
      fun _ hp hr => (finish_readReg_of_some hp _).trans (finish_arithStore_valueRange hr a),
      fun h => exec_of_indexOutside (by simpa [indexOutside] using h)⟩⟩

/-- Settles O22: both reads complete, and the difference has a place or not; or one of the indices is outside. -/
theorem subtractRegister : Obligations.SubtractRegister :=
  ⟨hasEncodingRR_of_select (fun _ _ _ _ => rfl) rfl (by decide), fun a _ _ =>
    ⟨fun _ _ hp hq hr => (finish_readBoth_of_some hp hq _).trans (finish_arithStore_advance hp hr),
      fun _ _ hp hq hr => (finish_readBoth_of_some hp hq _).trans (finish_arithStore_valueRange hr a),
      fun h => exec_of_indexOutside (by simpa [indexOutside] using h)⟩⟩

/-- Settles O23: the read completes, and the difference has a place or not; or the index is outside. -/
theorem subtractLiteral : Obligations.SubtractLiteral :=
  ⟨hasEncodingRI_of_select (fun _ _ _ _ => rfl) rfl, fun a _ _ =>
    ⟨fun _ hp hr => (finish_readReg_of_some hp _).trans (finish_arithStore_advance hp hr),
      fun _ hp hr => (finish_readReg_of_some hp _).trans (finish_arithStore_valueRange hr a),
      fun h => exec_of_indexOutside (by simpa [indexOutside] using h)⟩⟩

/-- Settles O24: both reads complete, and nothing after them can raise; or one of the indices is outside. -/
theorem compareRegister : Obligations.CompareRegister :=
  ⟨hasEncodingRR_of_select (fun _ _ _ _ => rfl) rfl (by decide), fun _ _ _ =>
    ⟨fun _ _ hp hq => exec_cmpRR_next hp hq, fun h => exec_of_indexOutside (by simpa [indexOutside] using h)⟩⟩

/-- Settles O25: the read completes, and nothing after it can raise; or the index is outside. -/
theorem compareLiteral : Obligations.CompareLiteral :=
  ⟨hasEncodingRI_of_select (fun _ _ _ _ => rfl) rfl, fun _ l _ =>
    ⟨fun _ hp => exec_cmpRI_next hp l, fun h => exec_of_indexOutside (by simpa [indexOutside] using h)⟩⟩

/-- Settles O45: each clause is read off the instruction's effect; the halt test leaves the flags. -/
theorem flagsFollowTheExactResult : Obligations.FlagsFollowTheExactResult := by
  refine ⟨fun i s t hi _ h ht => ?_, fun i s t hi h => (exec_effect h).sameFlags hi, fun s t hs h => ?_⟩
  · obtain ⟨r, hres, hz, hsf⟩ := (exec_effect h).flags_of_isArithmetic hi ht
    refine ⟨r, hres, hz, hsf, ?_⟩
    rw [hz, hsf]
    exact flags_cases r
  · obtain ⟨-, rfl⟩ | ⟨w, i, -, -, -, he⟩ := step_next_cases h
    · exact hs
    · exact (exec_effect he).flagsInv hs

/-- Settles O57: after a compare the exact result is `p - q`, whose sign orders `p` and `q`. -/
theorem branchAfterCompare : Obligations.BranchAfterCompare := by
  constructor
  · intro a b l p q s t hp h
    obtain ⟨hz, hs⟩ := flags_of_compare hp h
    simpa only [sub_eq_zero, ne_eq, sub_neg, sub_nonneg] using exec_branches_of_flags hz hs l
  · intro i l r s t hi hres _ h ht
    obtain ⟨r', hres', hz, hs⟩ := (exec_effect h).flags_of_isArithmetic (isArithmetic_of_storesResult hi) ht
    cases hres.symm.trans hres'
    exact exec_branches_of_flags hz hs l

end Sys2Proof.Machine
end

section
/-! Laws of the branch family: the encoding of a branch, the state it answers, and a run that stands still
(spec/43_branches.md R160, R161, R166). -/

namespace Sys2Proof.Machine

/-- The encoding of a branch is the row of the decoder's selection and the jump kind's opcode (R68). -/
theorem hasEncodingJ_of_select {opc : Nat} {k : JumpKind} {form : Nat → Instr}
    (hd : ∀ l d a b, selectInstr ⟨opc, l, d, a, b⟩ = .ok (form l)) (hk : jumpOpcode k = opc) :
    HasEncodingJ opc k form := by
  subst hk
  refine ⟨fun w hw => ?_, fun l hl => encodeJump_of_fits (Int.natCast_nonneg l) (Int.ofNat_le.mpr hl)⟩
  rw [decode, decodeFields, hw]
  exact hd ..

section

variable {i : Instr} {s : State} {l : Nat}

/-- R160: a branch answers the state it found with pc alone set, in every state. -/
theorem exec_of_isBranch (hi : isBranch i = true) :
    exec i s = .next { s with pc := (takenTarget i s).getD (s.pc + 1) } := by
  rw [← completed_pc]
  cases i with
  | js | jns | jne | je => rfl
  | _ => cases hi

/-- R161: the pc of a branch whose condition is `P`. -/
theorem exec_of_isBranch_if {P : Prop} [Decidable P] (hi : isBranch i = true)
    (ht : takenTarget i s = if P then some l else none) :
    exec i s = .next { s with pc := if P then l else s.pc + 1 } := by
  rw [exec_of_isBranch hi, ht, apply_ite (Option.getD · _)]
  rfl

/-- Only a branch has a taken target. -/
theorem isBranch_of_takenTarget (h : takenTarget i s = some l) : isBranch i = true := by
  cases i with
  | js | jns | jne | je => rfl
  | _ => cases h

theorem exec_of_takenTarget (h : takenTarget i s = some l) : exec i s = .next { s with pc := l } := by
  rw [exec_of_isBranch (isBranch_of_takenTarget h), h]
  rfl

/-- R108: a run whose step changes nothing uses up every bound. -/
theorem runFrom_of_step_self (h : step s = .next s) (n : Nat) : runFrom n s = .outOfFuel s := by
  induction n with
  | zero => exact runFrom_zero_of_running (running_of_step_next h)
  | succ n ih => rw [runFrom_succ_of_step h, ih]

/-- R218: a new run from a running state begins in that state. -/
theorem State.startRun_of_running (h : s.status = .running) : s.startRun = s := by
  rw [startRun, ← h]

theorem run_of_step_self (h : step s = .next s) (fuel : Nat) : run fuel s = .outOfFuel s := by
  rw [run, State.startRun_of_running (running_of_step_next h), runFrom_of_step_self h]

end

end Sys2Proof.Machine
end

section
/-! Proofs of the branch family (spec/43_branches.md R160 to R166). -/

namespace Sys2Proof.Machine

/-- Settles O26: the target is taken when SF = 1. -/
theorem jumpIfSign : Obligations.JumpIfSign :=
  ⟨hasEncodingJ_of_select (fun _ _ _ _ => rfl) rfl, fun _ _ => exec_of_isBranch_if rfl rfl⟩

/-- Settles O27: the target is taken when SF = 0. -/
theorem jumpIfNotSign : Obligations.JumpIfNotSign :=
  ⟨hasEncodingJ_of_select (fun _ _ _ _ => rfl) rfl, fun _ _ => exec_of_isBranch_if rfl rfl⟩

/-- Settles O28: the target is taken when ZF = 0. -/
theorem jumpIfNotEqual : Obligations.JumpIfNotEqual :=
  ⟨hasEncodingJ_of_select (fun _ _ _ _ => rfl) rfl, fun _ _ => exec_of_isBranch_if rfl rfl⟩

/-- Settles O29: the target is taken when ZF = 1. -/
theorem jumpIfEqual : Obligations.JumpIfEqual :=
  ⟨hasEncodingJ_of_select (fun _ _ _ _ => rfl) rfl, fun _ _ => exec_of_isBranch_if rfl rfl⟩

/-- Settles O35: the state answered is the one found with pc set, to the target when there is one and else to the next
index. -/
theorem branchFrame : Obligations.BranchFrame := by
  intro i s t hi h
  cases (exec_of_isBranch hi).symm.trans h
  refine ⟨rfl, ?_⟩
  cases takenTarget i s with
  | none => exact .inl rfl
  | some l => exact .inr rfl

/-- Settles O59: the cycle sets pc to the target; past the end the next fetch answers nothing, and a branch to its own
index is a step that changes nothing. -/
theorem branchPastTheEndHaltsAndSelfBranchLoops : Obligations.BranchPastTheEndHaltsAndSelfBranchLoops := by
  intro s w i l hs hf hd ht
  have hstep : step s = .next { s with pc := l } := (step_of_decode hs hf hd).trans (exec_of_takenTarget ht)
  refine ⟨fun hend => ⟨hstep, step_of_fetch_none hs (fetch_none_iff.mpr hend)⟩, fun hl => ?_⟩
  subst hl
  exact run_of_step_self hstep

end Sys2Proof.Machine
end

section
/-! Laws of the exception family: the grounds of a failure, and the state a failing cycle leaves
(spec/60_exceptions.md R182, R184, R190). -/

namespace Sys2Proof.Machine

variable {i : Instr} {s t : State} {k : FailureKind}

/-! The ground of a ValueRangeFailure. -/

/-- R184: the values with no place are those outside the two's-complement range of a finite XLEN. -/
theorem inRange_eq_false_iff {x : Xlen} {v : Int} : inRange x v = false ↔
    ∃ n, x = .bits n ∧ (v < -(2 : Int) ^ (n - 1) ∨ (2 : Int) ^ (n - 1) - 1 < v) := by
  cases x with
  | unbounded => simp [inRange]
  | bits n => simp [← Bool.not_eq_true, inRange_bits_iff, imp_iff_not_or]

theorem resultOutside_iff : resultOutside i s = true ↔
    storesResult i = true ∧ ∃ r, arithResult i s = some r ∧ inRange s.xlen r = false := by
  simp [resultOutside, Option.any_eq_true]

theorem lt_nregs_of_getElem? {a : Nat} {p : Value} (h : s.regs[a]? = some p) : a < s.nregs :=
  (List.getElem?_eq_some_iff.mp h).1

/-- R140: an ADD or SUB has an exact result only where its operands exist. -/
theorem indexOutside_of_arithResult {r : Int} (hi : storesResult i = true) (hres : arithResult i s = some r) :
    indexOutside i s = false := by
  cases i with
  | addRR a b | subRR a b =>
    simp only [arithResult] at hres
    split at hres
    · next hp hq => simp [indexOutside, lt_nregs_of_getElem? hp, lt_nregs_of_getElem? hq]
    · cases hres
  | addRI a l | subRI a l =>
    obtain ⟨p, hp, -⟩ := Option.map_eq_some_iff.mp hres
    simp [indexOutside, lt_nregs_of_getElem? hp]
  | _ => cases hi

/-- So where the range test fails, the bounds tests of R187 before it did not. -/
theorem indexOutside_of_resultOutside (h : resultOutside i s = true) : indexOutside i s = false := by
  obtain ⟨hi, r, hres, -⟩ := resultOutside_iff.mp h
  exact indexOutside_of_arithResult hi hres

/-! The failing cycle. -/

/-- R182, R184: a cycle raises either failure on its own ground and on no other. -/
theorem cycle_failed_iff (hs : s.status = .running) : (cycle i s).status = .failed k ↔
    (k = .boundsFailure ∧ indexOutside i s = true) ∨ (k = .valueRangeFailure ∧ resultOutside i s = true) := by
  cases hr : resultOutside i s with
  | true =>
    have ho := indexOutside_of_resultOutside hr
    simp [cycle_of_resultOutside ho hr, ho, State.fail, eq_comm]
  | false =>
    cases ho : indexOutside i s with
    | true => simp [cycle_of_indexOutside ho, State.fail, eq_comm]
    | false => simp [cycle_of_completes ho hr, hs]

/-- R190: a step that fails changes the status and nothing else. -/
theorem eq_fail_of_step (h : step s = .next t) (ht : t.status = .failed k) : t = s.fail k := by
  have hs := running_of_step_next h
  obtain ⟨-, rfl⟩ | ⟨w, i, -, -, -, he⟩ := step_next_cases h
  · cases ht
  · rcases exec_next_cases he with ⟨-, rfl⟩ | ⟨-, -, rfl⟩ | ⟨-, -, rfl⟩
    · cases ht
      rfl
    · cases ht
      rfl
    · rw [completed_status, hs] at ht
      cases ht

/-- R221: the state in which a new run begins after a failure is the one in which the failing cycle began. -/
theorem State.startRun_fail (hs : s.status = .running) (k : FailureKind) : (s.fail k).startRun = s :=
  startRun_of_running hs

end Sys2Proof.Machine
end

section
/-! Proofs of the exception family (spec/60_exceptions.md R180 to R193). -/

namespace Sys2Proof.Machine

/-- Settles O40: the failing step changes the status alone, so a new run begins where that step began. -/
theorem failureIsPrecise : Obligations.FailureIsPrecise := by
  intro s t k hs h ht
  obtain ⟨-, hstop, -⟩ := terminalStatusStopsTheStep
  obtain rfl := eq_fail_of_step h ht
  exact ⟨rfl, ⟨_, hstop _ k rfl⟩, by rw [State.startRun_fail hs, h]⟩

/-- Settles O41: the table's test comes first, and is the only ground of the failure. -/
theorem boundsFailureByTheTable : Obligations.BoundsFailureByTheTable := by
  refine ⟨fun i s => exec_of_indexOutside, fun i s t hs ho h ht => ?_⟩
  cases (exec_eq i s).symm.trans h
  rcases (cycle_failed_iff hs).mp ht with ⟨-, hout⟩ | ⟨hk, -⟩
  · rw [ho] at hout
    cases hout
  · cases hk

/-- Settles O42: safe is what ends in neither of the two failures, each of which has its one ground. -/
theorem cyclesAreSafeExactly : Obligations.CyclesAreSafeExactly := by
  intro s t w i hs hf hd h
  rw [step_of_decode hs hf hd, exec_eq] at h
  cases h
  calc (cycle i s).Safe
    _ ↔ indexOutside i s = false ∧ resultOutside i s = false := by
      simp [State.Safe, cycle_failed_iff hs, forall_and]
    _ ↔ _ := and_congr_right' resultOutside_eq_false_iff

/-- Settles O43: the ground of the failure is the failed range test, which only a finite XLEN has. -/
theorem valueRangeFailureExactly : Obligations.ValueRangeFailureExactly := by
  intro i s hs
  calc (∃ t, exec i s = .next t ∧ t.status = .failed .valueRangeFailure)
    _ ↔ resultOutside i s = true := by simp [exec_eq, cycle_failed_iff hs]
    _ ↔ _ := by simp only [resultOutside_iff, inRange_eq_false_iff, exists_and_left]

end Sys2Proof.Machine
end


section
/-! Laws of the reset family: what the constructor's tests accept, and the fields the host's operations set
(spec/70_reset_and_hazards.md R212, R217 to R220). -/

namespace Sys2Proof.Machine

/-! The tests of construction. -/

/-- R9: only a finite width is tested. -/
theorem xlenValid_iff {x : Xlen} : xlenValid x = true ↔ ∀ n, x = .bits n → 9 ≤ n := by
  cases x with
  | bits m => simp [xlenValid]
  | unbounded => simp [xlenValid]

/-- R8, R211: a memory given by its size has no supplied cell. -/
theorem forall_mem_dmemInit_iff {d : DmemInput} {P : Value → Prop} :
    (∀ v ∈ dmemInit d, P v) ↔ ∀ values, d = .contents values → ∀ v ∈ values, P v := by
  cases d with
  | contents values => simp [dmemInit]
  | size n => simp [dmemInit]

/-- R212: a machine is constructed exactly from valid inputs. -/
theorem exists_construct_iff {p : Params} : (∃ s, construct p = some s) ↔ paramsValid p = true := by
  simp only [construct_some_iff, exists_and_left, exists_eq, and_true]

/-! The host's operations. -/

@[simp] theorem appendWords_progLen (w : Word) (ws : List Word) (s : State) :
    (appendWords w ws s).progLen = s.progLen + (ws.length + 1) := List.length_append

/-- R217: a machine that had run off the end fetches the first word appended. -/
theorem fetch_appendWords_of_pc_eq {s : State} (h : s.pc = s.progLen) (w : Word) (ws : List Word) :
    fetch (appendWords w ws s) = some w := by
  have hnew : fetch (appendWords w ws s) = (w :: ws)[s.pc - s.progLen]? := List.getElem?_append_right h.ge
  rw [hnew, h, Nat.sub_self, List.getElem?_cons_zero]

@[simp] theorem resetRegisters_nregs (s : State) : (resetRegisters s).nregs = s.nregs := List.length_replicate

theorem resetRegisters_getElem? {s : State} {i : Nat} (h : i < s.nregs) : (resetRegisters s).regs[i]? = some 0 :=
  List.getElem?_replicate_of_lt h

end Sys2Proof.Machine
end

section
/-! Proofs of the reset family (spec/70_reset_and_hazards.md R210 to R226). -/

namespace Sys2Proof.Machine

/-- Settles O52: construction accepts the valid inputs, whose tests are those of the statement. -/
theorem constructionRefusesInvalidInputs : Obligations.ConstructionRefusesInvalidInputs := by
  intro p
  rw [exists_construct_iff, paramsValid_iff, xlenValid_iff, forall_mem_dmemInit_iff]

/-- Settles O54: each operation is an update of the fields it names, and the lemmas above give those fields. -/
theorem hostOperationsChangeOnlyTheirs : Obligations.HostOperationsChangeOnlyTheirs :=
  ⟨fun w ws s => ⟨rfl, appendWords_progLen w ws s, fun h => fetch_appendWords_of_pc_eq h w ws⟩,
    fun _ => ⟨rfl, rfl⟩,
    fun s => ⟨rfl, resetRegisters_nregs s, fun _ => resetRegisters_getElem?⟩⟩

end Sys2Proof.Machine
end
